-- ==== Sys2Proof/Word.lean ====
section
/-! DEFINITION. The bit vectors the spec names: register values, bytes, instruction containers. -/

namespace Sys2Proof

/-- A register value, an operand, `output` or the program counter: 32 bits, unsigned (10_state.md R20, R24, R30). -/
abbrev Word := BitVec 32

/-- A byte of data memory, and the 8-bit fields of an instruction (10_state.md R34, 30_encoding.md R81). -/
abbrev Byte := BitVec 8

/-- The 64-bit container of one instruction word (30_encoding.md R80). -/
abbrev Container := BitVec 64

end Sys2Proof
end

