-- ==== Sys2Proof/Syntax.lean ====
section
/-! DEFINITION. The instruction set: one constructor for each of the 32 values of the opcode field.

Every constructor carries all seven other fields, those its opcode does not read among them, because decoding is
lossless (30_encoding.md R84). The widths are in the types; no combination of field values is illegal (R90). -/

namespace Sys2Proof

/-- The seven fields of an instruction word beside the opcode (30_encoding.md R81). -/
structure Fields where
  /-- `goto`, bit 39: makes a taken branch absolute (R220). -/
  g : Bool
  /-- `ram_mode`, bit 38: the space of the next fetch (R219). -/
  r : Bool
  /-- `jump_offset`, bits 32..25 (R88). -/
  jo : Byte
  /-- `write_select`, bits 24..17: a 1-based register or memory-cell selector (R86). -/
  ws : Byte
  /-- `read_a_select`, bits 16..9: a 1-based register selector (R86). -/
  ra : Byte
  /-- `immediate_enable`, bit 8 (R87). -/
  ie : Bool
  /-- `read_b_select_or_immediate`, bits 7..0 (R86, R87). -/
  rb : Byte
deriving DecidableEq, Repr

/-- The instructions, in the order of the opcode map (30_encoding.md R89). -/
inductive Instr where
  /-- ADD, opcode 0 (R151). -/
  | add (f : Fields)
  /-- SUB, opcode 1 (R152). -/
  | sub (f : Fields)
  /-- MUL, opcode 2 (R153). -/
  | mul (f : Fields)
  /-- DIV, opcode 3 (R154). -/
  | div (f : Fields)
  /-- OR, opcode 4 (R155). -/
  | or (f : Fields)
  /-- AND, opcode 5 (R156). -/
  | and (f : Fields)
  /-- XOR, opcode 6 (R157). -/
  | xor (f : Fields)
  /-- SHIFT_R, opcode 7 (R158). -/
  | shiftR (f : Fields)
  /-- SHIFT_L, opcode 8 (R159). -/
  | shiftL (f : Fields)
  /-- JE, opcode 9 (R211). -/
  | je (f : Fields)
  /-- JLE, opcode 10 (R212). -/
  | jle (f : Fields)
  /-- JGE, opcode 11 (R213). -/
  | jge (f : Fields)
  /-- JL, opcode 12 (R214). -/
  | jl (f : Fields)
  /-- JG, opcode 13 (R215). -/
  | jg (f : Fields)
  /-- JNE, opcode 14 (R216). -/
  | jne (f : Fields)
  /-- SCAN, opcode 15 (R180). -/
  | scan (f : Fields)
  /-- RAM_WRITE, opcode 16 (R182, R183). -/
  | ramWrite (f : Fields)
  /-- RAM_READ, opcode 17 (R184). -/
  | ramRead (f : Fields)
  /-- OUTPUT, opcode 18 (R185). -/
  | output (f : Fields)
  /-- OP19, opcode 19 (R160). -/
  | op19 (f : Fields)
  /-- OP20, opcode 20 (R160). -/
  | op20 (f : Fields)
  /-- OP21, opcode 21 (R160). -/
  | op21 (f : Fields)
  /-- OP22, opcode 22 (R160). -/
  | op22 (f : Fields)
  /-- OP23, opcode 23 (R160). -/
  | op23 (f : Fields)
  /-- OP24, opcode 24 (R160). -/
  | op24 (f : Fields)
  /-- OP25, opcode 25 (R160). -/
  | op25 (f : Fields)
  /-- OP26, opcode 26 (R160). -/
  | op26 (f : Fields)
  /-- OP27, opcode 27 (R160). -/
  | op27 (f : Fields)
  /-- OP28, opcode 28 (R160). -/
  | op28 (f : Fields)
  /-- OP29, opcode 29 (R160). -/
  | op29 (f : Fields)
  /-- OP30, opcode 30 (R160). -/
  | op30 (f : Fields)
  /-- OP31, opcode 31 (R160). -/
  | op31 (f : Fields)
deriving DecidableEq, Repr

end Sys2Proof
end

