-- ==== Sys2Proof/Decode.lean ====
section
/-! DEFINITION. Decoding and encoding of the one instruction format, W64 (30_encoding.md).

The decoder is total: every 64-bit word is an instruction and nothing is refused (R83, R91). -/

namespace Sys2Proof

/-- `opcode`, bits 37..33 (30_encoding.md R81). -/
def fieldOp (w : Container) : BitVec 5 := w.extractLsb' 33 5

/-- The other seven fields at their bit positions (30_encoding.md R81, R83); bits 63..40 are not read (R82). -/
def fieldsOf (w : Container) : Fields where
  g := w.getLsbD 39
  r := w.getLsbD 38
  jo := w.extractLsb' 25 8
  ws := w.extractLsb' 17 8
  ra := w.extractLsb' 9 8
  ie := w.getLsbD 8
  rb := w.extractLsb' 0 8

/-- The opcode map (30_encoding.md R89). -/
def instrOf (op : BitVec 5) (f : Fields) : Instr :=
  match op.toNat with
  | 0 => .add f
  | 1 => .sub f
  | 2 => .mul f
  | 3 => .div f
  | 4 => .or f
  | 5 => .and f
  | 6 => .xor f
  | 7 => .shiftR f
  | 8 => .shiftL f
  | 9 => .je f
  | 10 => .jle f
  | 11 => .jge f
  | 12 => .jl f
  | 13 => .jg f
  | 14 => .jne f
  | 15 => .scan f
  | 16 => .ramWrite f
  | 17 => .ramRead f
  | 18 => .output f
  | 19 => .op19 f
  | 20 => .op20 f
  | 21 => .op21 f
  | 22 => .op22 f
  | 23 => .op23 f
  | 24 => .op24 f
  | 25 => .op25 f
  | 26 => .op26 f
  | 27 => .op27 f
  | 28 => .op28 f
  | 29 => .op29 f
  | 30 => .op30 f
  | _ => .op31 f

/-- The decoder (30_encoding.md R83). -/
def decode (w : Container) : Instr := instrOf (fieldOp w) (fieldsOf w)

/-- The opcode number of an instruction (30_encoding.md R89). -/
def opcodeOf : Instr → BitVec 5
  | .add _ => 0#5
  | .sub _ => 1#5
  | .mul _ => 2#5
  | .div _ => 3#5
  | .or _ => 4#5
  | .and _ => 5#5
  | .xor _ => 6#5
  | .shiftR _ => 7#5
  | .shiftL _ => 8#5
  | .je _ => 9#5
  | .jle _ => 10#5
  | .jge _ => 11#5
  | .jl _ => 12#5
  | .jg _ => 13#5
  | .jne _ => 14#5
  | .scan _ => 15#5
  | .ramWrite _ => 16#5
  | .ramRead _ => 17#5
  | .output _ => 18#5
  | .op19 _ => 19#5
  | .op20 _ => 20#5
  | .op21 _ => 21#5
  | .op22 _ => 22#5
  | .op23 _ => 23#5
  | .op24 _ => 24#5
  | .op25 _ => 25#5
  | .op26 _ => 26#5
  | .op27 _ => 27#5
  | .op28 _ => 28#5
  | .op29 _ => 29#5
  | .op30 _ => 30#5
  | .op31 _ => 31#5

/-- The fields of an instruction beside its opcode. -/
def operandsOf : Instr → Fields
  | .add f | .sub f | .mul f | .div f | .or f | .and f | .xor f | .shiftR f | .shiftL f | .je f
  | .jle f | .jge f | .jl f | .jg f | .jne f | .scan f | .ramWrite f | .ramRead f | .output f
  | .op19 f | .op20 f | .op21 f | .op22 f | .op23 f | .op24 f | .op25 f
  | .op26 f | .op27 f | .op28 f | .op29 f | .op30 f | .op31 f => f

/-- One bit as a container value. -/
def bitAt (b : Bool) : Container := if b then 1 else 0

/-- The encoder (30_encoding.md R84): each field shifted to its place, bits 63..40 zero. -/
def encode (i : Instr) : Container :=
  let f := operandsOf i
  (bitAt f.g <<< 39) ||| (bitAt f.r <<< 38) ||| ((opcodeOf i).setWidth 64 <<< 33) ||| (f.jo.setWidth 64 <<< 25)
    ||| (f.ws.setWidth 64 <<< 17) ||| (f.ra.setWidth 64 <<< 9) ||| (bitAt f.ie <<< 8) ||| f.rb.setWidth 64

/-- The container that the low `nbits` bits of the number `w` stand for, bits above them zero. The opcode table's bit
numbering is the container's (bit 0 the least significant), and a RAM slot stores the container least significant byte
first (20_memory.md R58), so no reordering takes place. -/
def tableContainer (nbits w : Nat) : Container := BitVec.ofNat 64 (w % 2 ^ nbits)

/-- The instruction the decoder reads from a row's bits. It refuses none. -/
def decodeTableWord (nbits w : Nat) : Option Instr := some (decode (tableContainer nbits w))

end Sys2Proof
end

