-- ==== Sys2Proof/Config.lean ====
section
/-! DEFINITION. What the spec leaves unspecified, as constants without a body: nothing can be proved of their values.

The parameters of 00_scope.md R7 are no constants here: `Sys2Proof.Machine.Params` (Machine/Ports.lean) holds all five,
and `Sys2Proof.Machine.State.construct` takes it as its argument.

The three constants below are applied to the whole state of the core at the point of the fault together with the
fault's reason, so that nothing relates the values of two different faults. Log entry 4. -/

namespace Sys2Proof.Config

/-- The registers of a core that a model fault has stopped: unspecified (40_cycle.md R118, 93 U6). FREE VALUE. -/
opaque faultedRegs {σ : Type} : σ → Vector Word 16

/-- The memory bytes of a core that a model fault has stopped: unspecified (40_cycle.md R118, 93 U6). FREE VALUE. -/
opaque faultedMem {σ : Type} : σ → Vector Byte 256

/-- The console output of a core that a model fault has stopped: unspecified (40_cycle.md R118, 93 U6). FREE VALUE. -/
opaque faultedOutput {σ : Type} : σ → List Word

end Sys2Proof.Config
end

