-- ==== Sys2Proof/Machine/State.lean ====
section
/-! DEFINITION. The state of the core as plain data, the reasons a run can stop, and the state at construction. -/

namespace Sys2Proof.Machine

/-- The ExecutionMode: the space the next fetch reads (10_state.md R27). -/
inductive Mode where
  /-- Mode 0: `pc` is an index of the program table. -/
  | rom
  /-- Mode 1: `pc` is a slot of eight bytes of data memory. -/
  | ram
deriving DecidableEq, Repr

/-- A console input token: an integer of any sign and size, or malformed (60_exceptions.md R256). -/
inductive Token where
  /-- A decimal integer. -/
  | integer (n : Int)
  /-- Anything else; no rule reads its text. -/
  | malformed
deriving DecidableEq, Repr

/-- The model faults, the reasons of the run state Faulted (60_exceptions.md R246). A step that meets one answers a
NEXT state whose run state is Faulted (40_cycle.md R118); no step of this model answers `Host.Outcome.fault`. -/
inductive Fault where
  /-- Raised by the Operand Resolver for `ra` in 17..255 (41_operands.md R131). Safe: the run ends, with every
  register, byte and emission left free. -/
  | readASelectorOutOfRange (ra : Byte)
  /-- Raised by the Write-Back Unit for `ws` in 17..255 outside RAM_WRITE (44_writeback.md R201). Safe: as above. -/
  | writeSelectorOutOfRange (ws : Byte)
  /-- Raised by the Operand Resolver when a SCAN takes a malformed token (43_memory_io.md R181). Safe: as above. -/
  | malformedInput
deriving DecidableEq, Repr

/-- The refusals of the model. -/
inductive Refusal where
  /-- An instruction without a meaning, raised by its arm of `exec`; every instruction of this core has one, so
  nothing raises it. Safe. -/
  | notModelled (mnemonic : String)
deriving DecidableEq, Repr

/-- The run state (10_state.md R31, 60_exceptions.md R260). -/
inductive RunState where
  /-- The core takes steps. -/
  | running
  /-- The terminal state of an out-of-range fetch (60_exceptions.md R241). -/
  | halted
  /-- The terminal state of a model fault (40_cycle.md R118). -/
  | faulted (reason : Fault)
deriving DecidableEq, Repr

/-- A register or memory write, as the write-back event reports it (60_exceptions.md R262). -/
inductive Write where
  /-- Register `x[i]` took the value `v`. -/
  | reg (i : Fin 16) (v : Word)
  /-- Memory byte `M[a]` took the value `v`. -/
  | mem (a : Byte) (v : Byte)
deriving DecidableEq, Repr

/-- The events of the trace stream, one constructor for each category of 60_exceptions.md R262, the categories
warning and error split by kind. -/
inductive Event where
  /-- Every valid fetch. -/
  | fetch (mode : Mode) (pc : Word) (w : Container)
  /-- After Operand Resolve. -/
  | operandResolve (pathA pathB : Word)
  /-- After Dispatch. -/
  | dispatch (op : BitVec 5) (output : Word) (branch : Byte)
  /-- A register or memory write. -/
  | writeBack (w : Write)
  /-- Every completed step: the next mode and the next `pc`. -/
  | branchDecision (mode : Mode) (pc : Word)
  /-- Warning SelectorOutOfRange with the selector (R242). -/
  | selectorOutOfRange (rb : Byte)
  /-- Warning ScanOutOfRange with the token's value (R244). -/
  | scanOutOfRange (n : Int)
  /-- Error DivideByZero (R243). -/
  | divideByZero
  /-- Error AddressOutOfRange with the space and the `pc` (R241). -/
  | addressOutOfRange (mode : Mode) (pc : Word)
deriving DecidableEq, Repr

/-- The data memory `M` as the bytes that are not 0, by rising address (`Memory.wf` in Machine/Ops.lean). -/
abbrev Memory := List Host.Cell

/-- The program table `ROM` as the words that are not 0, by rising index. -/
abbrev Rom := List (Nat × Container)

/-- Everything the spec gives the core that outlives a step (10_state.md R20 to R37). -/
structure State where
  /-- `x[0]` to `x[15]` (R20). -/
  regs : Vector Word 16
  /-- The program counter (R23 to R26). -/
  pc : Word
  /-- The ExecutionMode (R27). -/
  mode : Mode
  /-- The run state (R31). -/
  run : RunState
  /-- The hidden SCAN wait: the instruction at `pc` was fetched and waits for a token (R32, 40_cycle.md R117). -/
  scanWait : Bool
  /-- The program table (R33). -/
  rom : Rom
  /-- The data memory (R34). -/
  mem : Memory
  /-- The console input channel: the tokens not yet taken, the next one first (60_exceptions.md R256). -/
  input : List Token
  /-- The console output log, oldest first (60_exceptions.md R257). -/
  output : List Word
  /-- The trace stream, oldest first (60_exceptions.md R261, R262). -/
  trace : List Event
deriving DecidableEq, Repr

/-- The core right after construction, with the reference memory (all zero), no program supplied (every entry 0) and
no console token (10_state.md R36, 70_reset_and_hazards.md R272). A program comes to run by being supplied at
construction: `State.construct` of Machine/Ports.lean. DESIGN CHOICE, log entries 1 to 3. -/
def State.reset : State where
  regs := Vector.replicate 16 0#32
  pc := 0#32
  mode := .rom
  run := .running
  scanWait := false
  rom := []
  mem := []
  input := []
  output := []
  trace := []

end Sys2Proof.Machine
end

