-- ==== Sys2Proof/Machine/Ops.lean ====
section
/-! DEFINITION. The named operations: sparse storage, the two ports of memory, the instruction ports, the register
file, the console and the trace, and how a run ends. Every meaning works through these. -/

namespace Sys2Proof.Machine

/-! ### Storage in canonical form -/

/-- The value at key `a`; what is not listed is 0. For data memory that is the reference value of INIT_MEM
(10_state.md R36). -/
def readCell {w : Nat} : List (Nat × BitVec w) → Nat → BitVec w
  | [], _ => 0#w
  | (k, v) :: t, a => if a = k then v else readCell t a

/-- Set the value at key `a` to a `v` that is not 0, keeping the keys rising. -/
def insertCell {w : Nat} : List (Nat × BitVec w) → Nat → BitVec w → List (Nat × BitVec w)
  | [], a, v => [(a, v)]
  | (k, x) :: t, a, v =>
    if a < k then (a, v) :: (k, x) :: t
    else if a = k then (a, v) :: t
    else (k, x) :: insertCell t a v

/-- Set the value at key `a`, keeping the keys rising and listing no 0. -/
def writeCell {w : Nat} (m : List (Nat × BitVec w)) (a : Nat) (v : BitVec w) : List (Nat × BitVec w) :=
  if v = 0#w then m.filter (fun c => c.1 != a) else insertCell m a v

/-- The values of a list placed at the keys `k`, `k + 1`, ... -/
def cellsFrom {w : Nat} : Nat → List (BitVec w) → List (Nat × BitVec w)
  | _, [] => []
  | k, v :: vs => if v = 0#w then cellsFrom (k + 1) vs else (k, v) :: cellsFrom (k + 1) vs

/-- The canonical form from key `lo` on: keys rising, each below `n`, no value 0. -/
def cellsWfFrom {w : Nat} (n : Nat) : Nat → List (Nat × BitVec w) → Bool
  | _, [] => true
  | lo, (k, v) :: t => decide (lo ≤ k) && decide (k < n) && decide (v ≠ 0#w) && cellsWfFrom n (k + 1) t

/-- Data memory is in canonical form: 256 byte addresses (10_state.md R34). -/
def Memory.wf (m : Memory) : Bool := cellsWfFrom 256 0 m

/-- The program table is in canonical form: 256 entries (10_state.md R33). -/
def Rom.wf (m : Rom) : Bool := cellsWfFrom 256 0 m

/-! ### The data port -/

/-- The memory address a nonzero memory-cell selector names (20_memory.md R51). -/
def cellAddress (sel : Byte) : Byte := sel - 1#8

/-- `trunc8(v)` (00_scope.md R9). -/
def trunc8 (v : Word) : Byte := v.setWidth 8

/-- `zext_32(v)` of a byte (00_scope.md R9). -/
def zext32 (v : Byte) : Word := v.setWidth 32

/-- `MemRead(a, 1)` (20_memory.md R52). The address type is the whole RAM space, so every address exists. -/
def memRead (s : State) (a : Byte) : Byte := readCell s.mem a.toNat

/-- `MemWrite(a, 1, v)`: the low byte of `v` (20_memory.md R53). -/
def memWrite (s : State) (a : Byte) (v : Word) : State := { s with mem := writeCell s.mem a.toNat (trunc8 v) }

/-! ### The instruction ports -/

/-- `ROM[i]` (20_memory.md R55). -/
def romWord (s : State) (i : Nat) : Container := readCell s.rom i

/-- `FetchRAM(a)`: eight bytes, the least significant at the lowest address (20_memory.md R58). -/
def fetchRam (s : State) (a : Byte) : Container :=
  memRead s (a + 7#8) ++ memRead s (a + 6#8) ++ memRead s (a + 5#8) ++ memRead s (a + 4#8)
    ++ memRead s (a + 3#8) ++ memRead s (a + 2#8) ++ memRead s (a + 1#8) ++ memRead s a

/-- The largest `pc` a fetch accepts: 255 in ROM space, 31 in RAM space (20_memory.md R55, R57). -/
def lastIndex : Mode → Nat
  | .rom => 255
  | .ram => 31

/-- The byte address of a RAM slot, `8 * pc` (20_memory.md R57). -/
def slotAddress (pc : Word) : Byte := BitVec.ofNat 8 (8 * pc.toNat)

/-- The Fetch Unit's word, or none where the fetch is AddressOutOfRange (40_cycle.md R113). -/
def fetchWord (s : State) : Option Container :=
  if s.pc.toNat ≤ lastIndex s.mode then
    match s.mode with
    | .rom => some (romWord s s.pc.toNat)
    | .ram => some (fetchRam s (slotAddress s.pc))
  else none

/-! ### The register file -/

/-- The register a selector 1..16 names; none for 0 and for 17..255 (10_state.md R20, 30_encoding.md R86). -/
def selectorIndex (sel : Byte) : Option (Fin 16) :=
  if h : 1 ≤ sel.toNat ∧ sel.toNat ≤ 16 then some ⟨sel.toNat - 1, by omega⟩ else none

/-- `x[i]` (00_scope.md R10). -/
def readReg (s : State) (i : Fin 16) : Word := s.regs[i]

/-- `x[i] <- v` (00_scope.md R10). -/
def writeReg (s : State) (i : Fin 16) (v : Word) : State := { s with regs := s.regs.set i v }

/-! ### Console and trace -/

/-- One trace event (60_exceptions.md R261). -/
def record (s : State) (e : Event) : State := { s with trace := s.trace ++ [e] }

/-- `emit Output(v)` (60_exceptions.md R257). -/
def emitOutput (s : State) (v : Word) : State := { s with output := s.output ++ [v] }

/-- The SCAN step takes the first token, `rest` being what is left; a wait for it is over (60_exceptions.md R256). -/
def takeToken (s : State) (rest : List Token) : State := { s with input := rest, scanWait := false }

/-- The SCAN step waits: nothing changes but the hidden wait itself (40_cycle.md R117, 10_state.md R32). -/
def awaitToken (s : State) : State := { s with scanWait := true }

/-- The fetch event, once for each instruction: a SCAN that waits was fetched already (60_exceptions.md R262,
40_cycle.md R117). DEDUCED, log entry 6. -/
def recordFetch (s : State) (w : Container) : State :=
  if s.scanWait then s else record s (.fetch s.mode s.pc w)

/-! ### The end of a run

The core has no traps: no condition saves state, changes the mode or goes to a handler, and nothing returns from one
(60_exceptions.md R249, R250). These two are all that a condition can do beside being recorded. -/

/-- AddressOutOfRange: the error event, and the run state Halted; all else keeps its value (60_exceptions.md R241,
40_cycle.md R119). -/
def enterHalted (s : State) : State :=
  { record s (.addressOutOfRange s.mode s.pc) with run := .halted }

/-- A model fault: the run state Faulted, and the registers, the memory and the console output unspecified
(40_cycle.md R118): free values. Log entries 4 and 5. -/
def enterFaulted (s : State) (reason : Fault) : State :=
  { s with
    run := .faulted reason
    regs := Config.faultedRegs (s, reason)
    mem := cellsFrom 0 (Config.faultedMem (s, reason)).toList
    output := Config.faultedOutput (s, reason) }

/-! ### Phases -/

/-- What a phase of a step leaves: the state and a value for the next phase, or the end of the step. -/
inductive Phase (α : Type) where
  /-- The step goes on. -/
  | go (s : State) (x : α)
  /-- The step ends in this state: it waits for a token, or a model fault stopped it. -/
  | ended (s : State)

/-! ### Placing an instruction where the next fetch reads it -/

/-- The eight bytes of a container stored from address `a` on, least significant first (20_memory.md R58). -/
def placeBytes (m : Memory) (a : Nat) (w : Container) : Memory :=
  (List.range 8).foldl (fun m j => writeCell m (a + j) (w.extractLsb' (8 * j) 8)) m

/-- The index the next fetch is made to read: `pc` where a fetch accepts it, else entry 0. -/
def placeIndex (s : State) : Word := if s.pc.toNat ≤ lastIndex s.mode then s.pc else 0#32

/-- Put `w` where the next step fetches it: at `pc` in the space of the mode, from entry 0 where `pc` is out of range,
with the core running and no SCAN waiting. Log entry 9. -/
def placeWord (s : State) (w : Container) : State :=
  let ready := { s with pc := placeIndex s, run := .running, scanWait := false }
  match s.mode with
  | .rom => { ready with rom := writeCell s.rom (placeIndex s).toNat w }
  | .ram => { ready with mem := placeBytes s.mem (8 * (placeIndex s).toNat) w }

end Sys2Proof.Machine
end

