-- ==== Sys2Proof/Machine/Operands.lean ====
section
/-! DEFINITION. The Operand Resolver: every form of operand A and operand B (41_operands.md). -/

namespace Sys2Proof.Machine

/-- Operand A: 0 for selector 0, a register for 1..16, none for 17..255 (41_operands.md R130, R131). -/
def operandA (s : State) (ra : Byte) : Option Word :=
  if ra = 0#8 then some 0#32 else (selectorIndex ra).map (readReg s)

/-- Operand B of every opcode but SCAN and RAM_READ: the immediate, a register, or 0 (41_operands.md R135 to R137). A
register selector above 16 reads 0 (R136). -/
def operandB (s : State) (ie : Bool) (rb : Byte) : Word :=
  if ie then zext32 rb
  else match selectorIndex rb with
    | some i => readReg s i
    | none => 0#32

/-- The state after operand B is resolved: a register selector above 16 has its warning recorded
(60_exceptions.md R242). -/
def warnSelector (s : State) (ie : Bool) (rb : Byte) : State :=
  if ie = false ∧ 16 < rb.toNat then record s (.selectorOutOfRange rb) else s

/-- Operand B of RAM_READ: a memory byte, zero-extended, or 0 for selector 0 (41_operands.md R134). -/
def operandMem (s : State) (rb : Byte) : Word :=
  if rb = 0#8 then 0#32 else zext32 (memRead s (cellAddress rb))

/-- SCAN_MAX, the largest console integer accepted (00_scope.md R6). -/
def scanMax : Int := 4294967295

/-- An integer token's value lies in 0..SCAN_MAX (43_memory_io.md R181). -/
def scanInRange (n : Int) : Bool := decide (0 ≤ n) && decide (n ≤ scanMax)

/-- `scanValue` of an integer token: 0 outside the range (43_memory_io.md R181). -/
def scanValue (n : Int) : Word := if scanInRange n then BitVec.ofInt 32 n else 0#32

/-- An integer token outside the range has its warning recorded (60_exceptions.md R244). -/
def warnScan (s : State) (n : Int) : State := if scanInRange n then s else record s (.scanOutOfRange n)

/-- The end of Operand Resolve: its event, and the two operands for the next phase (60_exceptions.md R262). -/
def resolved (s : State) (a b : Word) : Phase (Word × Word) := .go (record s (.operandResolve a b)) (a, b)

/-- Operand A first; where it is out of range the step is a model fault before anything of operand B happens
(41_operands.md R131, R138). -/
def resolveA (s : State) (ra : Byte) (next : Word → Phase (Word × Word)) : Phase (Word × Word) :=
  match operandA s ra with
  | some a => next a
  | none => .ended (enterFaulted s (.readASelectorOutOfRange ra))

/-- Operand Resolve of every opcode but SCAN and RAM_READ (41_operands.md R132). -/
def resolveGeneral (s : State) (f : Fields) : Phase (Word × Word) :=
  resolveA s f.ra fun a => resolved (warnSelector s f.ie f.rb) a (operandB s f.ie f.rb)

/-- Operand Resolve of RAM_READ; `ie` is not read (41_operands.md R134). -/
def resolveMem (s : State) (f : Fields) : Phase (Word × Word) :=
  resolveA s f.ra fun a => resolved s a (operandMem s f.rb)

/-- Operand Resolve of SCAN: it waits while the channel is empty, and else takes one token; `ie` and `rb` are not read
(41_operands.md R133, 43_memory_io.md R180, R181, 40_cycle.md R117). -/
def resolveScan (s : State) (f : Fields) : Phase (Word × Word) :=
  resolveA s f.ra fun a =>
    match s.input with
    | [] => .ended (awaitToken s)
    | .integer n :: rest => resolved (warnScan (takeToken s rest) n) a (scanValue n)
    | .malformed :: rest => .ended (enterFaulted (takeToken s rest) .malformedInput)

end Sys2Proof.Machine
end

