-- ==== Sys2Proof/Machine/Cycle.lean ====
section
/-! DEFINITION. One step after Operand Resolve: the values a step computes and discards, Write-Back, Control-Flow,
and the order of the phases (40_cycle.md R111, R112). -/

namespace Sys2Proof.Machine

/-- The cycle-transient values of one step (10_state.md R30): each starts the step at 0. -/
structure Transient where
  /-- Operand A. -/
  pathA : Word := 0#32
  /-- Operand B. -/
  pathB : Word := 0#32
  /-- The Dispatcher's value. -/
  output : Word := 0#32
  /-- The taken jump offset, or 0. -/
  branch : Byte := 0#8
  /-- Set in a RAM_WRITE cycle. -/
  memwrite : Bool := false
deriving DecidableEq, Repr

/-- The start of Dispatch: `output` is the sum modulo 2^32 (42_alu.md R150). -/
def dispatchStart (a b : Word) : Transient := { pathA := a, pathB := b, output := a + b }

/-- The Write-Back Unit (44_writeback.md R200, R201). In a RAM_WRITE cycle no register is written; its memory write,
made in Dispatch, is reported here (60_exceptions.md R262; log entry 7). -/
def writeBack (s : State) (ws : Byte) (c : Transient) : Phase Unit :=
  if ws = 0#8 then .go s ()
  else if c.memwrite then .go (record s (.writeBack (.mem (cellAddress ws) (trunc8 c.output)))) ()
  else match selectorIndex ws with
    | some i => .go (record (writeReg s i c.output) (.writeBack (.reg i c.output))) ()
    | none => .ended (enterFaulted s (.writeSelectorOutOfRange ws))

/-- The mode an instruction's `ram_mode` bit names (10_state.md R27). -/
def modeOfBit (r : Bool) : Mode := if r then .ram else .rom

/-- The relative target, modulo 256 (45_control_flow.md R221). -/
def relativeTarget (pc : Word) (branch : Byte) : Word := BitVec.ofNat 32 ((pc.toNat + branch.toNat) % 256)

/-- The next `pc` and mode, as the source states the decision (45_control_flow.md R217, R228). -/
def nextPc (mode : Mode) (pc : Word) (r g : Bool) (branch : Byte) (output : Word) : Word × Mode :=
  let ramIst := modeOfBit r
  if branch ≠ 0#8 ∨ mode ≠ ramIst then
    let target := if r || g then output else relativeTarget pc branch
    if mode ≠ ramIst then (output, ramIst) else (target, mode)
  else (pc + 1#32, mode)

/-- The Control-Flow Unit: the next `pc` and mode, and their event (45_control_flow.md R217, 60_exceptions.md R262). -/
def controlFlow (s : State) (f : Fields) (c : Transient) : State :=
  let n := nextPc s.mode s.pc f.r f.g c.branch c.output
  record { s with pc := n.1, mode := n.2 } (.branchDecision n.2 n.1)

/-- The phases after Dispatch (40_cycle.md R111, R112): the dispatch event, Write-Back, Control-Flow. -/
def finishCycle (op : BitVec 5) (f : Fields) (s : State) (c : Transient) : State :=
  match writeBack (record s (.dispatch op c.output c.branch)) f.ws c with
  | .go t _ => controlFlow t f c
  | .ended t => t

/-- One step from the outcome of Operand Resolve on (40_cycle.md R112): Dispatch acts on the state and on the
cycle-transient values, which start at the default sum. -/
def runCycle (op : BitVec 5) (f : Fields) (operands : Phase (Word × Word))
    (dispatch : State → Transient → State × Transient) : Host.Outcome State Fault Refusal :=
  match operands with
  | .ended t => .next t
  | .go t (a, b) =>
    let d := dispatch t (dispatchStart a b)
    .next (finishCycle op f d.1 d.2)

/-- Dispatch of an opcode that adds nothing to the default sum (42_alu.md R150). -/
def dispatchDefault (s : State) (c : Transient) : State × Transient := (s, c)

/-- Dispatch of an opcode that replaces `output` by a value of its operands. -/
def dispatchValue (value : Word → Word → Word) (s : State) (c : Transient) : State × Transient :=
  (s, { c with output := value c.pathA c.pathB })

/-- Dispatch of a comparison: `branch` becomes `jo` where the condition holds, and `output` stays the sum
(45_control_flow.md R210). -/
def dispatchCompare (cond : Word → Word → Bool) (jo : Byte) (s : State) (c : Transient) : State × Transient :=
  (s, if cond c.pathA c.pathB then { c with branch := jo } else c)

end Sys2Proof.Machine
end

