-- ==== Sys2Proof/Machine/Alu.lean ====
section
/-! DEFINITION. The arithmetic and logic opcodes 0 to 8 (42_alu.md). -/

namespace Sys2Proof.Machine

/-- The value of a division by zero (42_alu.md R154). -/
def divSentinel : Word := 256#32

/-- Dispatch of DIV: by zero, an error event and 256; else the unsigned quotient (42_alu.md R154). -/
def dispatchDiv (s : State) (c : Transient) : State × Transient :=
  if c.pathB = 0#32 then (record s .divideByZero, { c with output := divSentinel })
  else (s, { c with output := c.pathA.udiv c.pathB })

/-- ADD (42_alu.md R151). -/
def execAdd (f : Fields) (s : State) : Host.Outcome State Fault Refusal :=
  runCycle 0 f (resolveGeneral s f) dispatchDefault

/-- SUB (42_alu.md R152). -/
def execSub (f : Fields) (s : State) : Host.Outcome State Fault Refusal :=
  runCycle 1 f (resolveGeneral s f) (dispatchValue fun a b => a - b)

/-- MUL, the low 32 bits of the product (42_alu.md R153). -/
def execMul (f : Fields) (s : State) : Host.Outcome State Fault Refusal :=
  runCycle 2 f (resolveGeneral s f) (dispatchValue fun a b => a * b)

/-- DIV (42_alu.md R154). -/
def execDiv (f : Fields) (s : State) : Host.Outcome State Fault Refusal :=
  runCycle 3 f (resolveGeneral s f) dispatchDiv

/-- OR (42_alu.md R155). -/
def execOr (f : Fields) (s : State) : Host.Outcome State Fault Refusal :=
  runCycle 4 f (resolveGeneral s f) (dispatchValue fun a b => a ||| b)

/-- AND (42_alu.md R156). -/
def execAnd (f : Fields) (s : State) : Host.Outcome State Fault Refusal :=
  runCycle 5 f (resolveGeneral s f) (dispatchValue fun a b => a &&& b)

/-- XOR (42_alu.md R157). -/
def execXor (f : Fields) (s : State) : Host.Outcome State Fault Refusal :=
  runCycle 6 f (resolveGeneral s f) (dispatchValue fun a b => a ^^^ b)

/-- SHIFT_R: the wrapped sum shifted right by one (42_alu.md R158). -/
def execShiftR (f : Fields) (s : State) : Host.Outcome State Fault Refusal :=
  runCycle 7 f (resolveGeneral s f) (dispatchValue fun a b => (a + b) >>> 1)

/-- SHIFT_L: the wrapped sum shifted left by one (42_alu.md R159). -/
def execShiftL (f : Fields) (s : State) : Host.Outcome State Fault Refusal :=
  runCycle 8 f (resolveGeneral s f) (dispatchValue fun a b => (a + b) <<< 1)

end Sys2Proof.Machine
end

