-- ==== Sys2Proof/Machine/Flags.lean ====
section
/-! DEFINITION. Conditions. The core has no flags (10_state.md R29); a comparison decides at once, from its two
operands as unsigned numbers, whether its branch is taken (45_control_flow.md R210). -/

namespace Sys2Proof.Machine

/-- JE: `path_a = path_b` (45_control_flow.md R211). -/
def condEq (a b : Word) : Bool := a == b

/-- JLE: `path_a <= path_b`, unsigned (45_control_flow.md R212). -/
def condLe (a b : Word) : Bool := BitVec.ule a b

/-- JGE: `path_a >= path_b`, unsigned (45_control_flow.md R213). -/
def condGe (a b : Word) : Bool := BitVec.ule b a

/-- JL: `path_a < path_b`, unsigned (45_control_flow.md R214). -/
def condLt (a b : Word) : Bool := BitVec.ult a b

/-- JG: `path_a > path_b`, unsigned (45_control_flow.md R215). -/
def condGt (a b : Word) : Bool := BitVec.ult b a

/-- JNE: `path_a != path_b` (45_control_flow.md R216). -/
def condNe (a b : Word) : Bool := a != b

end Sys2Proof.Machine
end

