-- ==== Sys2Proof/Machine/Compare.lean ====
section
/-! DEFINITION. The comparison opcodes 9 to 14 (45_control_flow.md). -/

namespace Sys2Proof.Machine

/-- JE (45_control_flow.md R211). -/
def execJe (f : Fields) (s : State) : Host.Outcome State Fault Refusal :=
  runCycle 9 f (resolveGeneral s f) (dispatchCompare condEq f.jo)

/-- JLE (45_control_flow.md R212). -/
def execJle (f : Fields) (s : State) : Host.Outcome State Fault Refusal :=
  runCycle 10 f (resolveGeneral s f) (dispatchCompare condLe f.jo)

/-- JGE (45_control_flow.md R213). -/
def execJge (f : Fields) (s : State) : Host.Outcome State Fault Refusal :=
  runCycle 11 f (resolveGeneral s f) (dispatchCompare condGe f.jo)

/-- JL (45_control_flow.md R214). -/
def execJl (f : Fields) (s : State) : Host.Outcome State Fault Refusal :=
  runCycle 12 f (resolveGeneral s f) (dispatchCompare condLt f.jo)

/-- JG (45_control_flow.md R215). -/
def execJg (f : Fields) (s : State) : Host.Outcome State Fault Refusal :=
  runCycle 13 f (resolveGeneral s f) (dispatchCompare condGt f.jo)

/-- JNE (45_control_flow.md R216). -/
def execJne (f : Fields) (s : State) : Host.Outcome State Fault Refusal :=
  runCycle 14 f (resolveGeneral s f) (dispatchCompare condNe f.jo)

end Sys2Proof.Machine
end

