-- ==== Sys2Proof/Machine/MemoryIo.lean ====
section
/-! DEFINITION. The memory and console opcodes 15 to 18 (43_memory_io.md). -/

namespace Sys2Proof.Machine

/-- Dispatch of OUTPUT: `output` is emitted (43_memory_io.md R185). -/
def dispatchOutput (s : State) (c : Transient) : State × Transient := (emitOutput s c.output, c)

/-- Dispatch of RAM_WRITE: the low byte of `output` is stored where `ws` is not 0, and the whole `output` is emitted
whatever `ws` is (43_memory_io.md R182, R183). -/
def dispatchRamWrite (ws : Byte) (s : State) (c : Transient) : State × Transient :=
  (emitOutput (if ws = 0#8 then s else memWrite s (cellAddress ws) c.output) c.output, { c with memwrite := true })

/-- SCAN (43_memory_io.md R180, R181). -/
def execScan (f : Fields) (s : State) : Host.Outcome State Fault Refusal :=
  runCycle 15 f (resolveScan s f) dispatchDefault

/-- RAM_WRITE (43_memory_io.md R182, R183). -/
def execRamWrite (f : Fields) (s : State) : Host.Outcome State Fault Refusal :=
  runCycle 16 f (resolveGeneral s f) (dispatchRamWrite f.ws)

/-- RAM_READ (43_memory_io.md R184). -/
def execRamRead (f : Fields) (s : State) : Host.Outcome State Fault Refusal :=
  runCycle 17 f (resolveMem s f) dispatchDefault

/-- OUTPUT (43_memory_io.md R185). -/
def execOutput (f : Fields) (s : State) : Host.Outcome State Fault Refusal :=
  runCycle 18 f (resolveGeneral s f) dispatchOutput

end Sys2Proof.Machine
end

