-- ==== Sys2Proof/Machine/Unassigned.lean ====
section
/-! DEFINITION. The unassigned opcodes 19 to 31: each computes the default sum, exactly as ADD does, and writes it back
(42_alu.md R160, 30_encoding.md R91). -/

namespace Sys2Proof.Machine

/-- OP19 (42_alu.md R160). -/
def execOp19 (f : Fields) (s : State) : Host.Outcome State Fault Refusal :=
  runCycle 19 f (resolveGeneral s f) dispatchDefault

/-- OP20 (42_alu.md R160). -/
def execOp20 (f : Fields) (s : State) : Host.Outcome State Fault Refusal :=
  runCycle 20 f (resolveGeneral s f) dispatchDefault

/-- OP21 (42_alu.md R160). -/
def execOp21 (f : Fields) (s : State) : Host.Outcome State Fault Refusal :=
  runCycle 21 f (resolveGeneral s f) dispatchDefault

/-- OP22 (42_alu.md R160). -/
def execOp22 (f : Fields) (s : State) : Host.Outcome State Fault Refusal :=
  runCycle 22 f (resolveGeneral s f) dispatchDefault

/-- OP23 (42_alu.md R160). -/
def execOp23 (f : Fields) (s : State) : Host.Outcome State Fault Refusal :=
  runCycle 23 f (resolveGeneral s f) dispatchDefault

/-- OP24 (42_alu.md R160). -/
def execOp24 (f : Fields) (s : State) : Host.Outcome State Fault Refusal :=
  runCycle 24 f (resolveGeneral s f) dispatchDefault

/-- OP25 (42_alu.md R160). -/
def execOp25 (f : Fields) (s : State) : Host.Outcome State Fault Refusal :=
  runCycle 25 f (resolveGeneral s f) dispatchDefault

/-- OP26 (42_alu.md R160). -/
def execOp26 (f : Fields) (s : State) : Host.Outcome State Fault Refusal :=
  runCycle 26 f (resolveGeneral s f) dispatchDefault

/-- OP27 (42_alu.md R160). -/
def execOp27 (f : Fields) (s : State) : Host.Outcome State Fault Refusal :=
  runCycle 27 f (resolveGeneral s f) dispatchDefault

/-- OP28 (42_alu.md R160). -/
def execOp28 (f : Fields) (s : State) : Host.Outcome State Fault Refusal :=
  runCycle 28 f (resolveGeneral s f) dispatchDefault

/-- OP29 (42_alu.md R160). -/
def execOp29 (f : Fields) (s : State) : Host.Outcome State Fault Refusal :=
  runCycle 29 f (resolveGeneral s f) dispatchDefault

/-- OP30 (42_alu.md R160). -/
def execOp30 (f : Fields) (s : State) : Host.Outcome State Fault Refusal :=
  runCycle 30 f (resolveGeneral s f) dispatchDefault

/-- OP31 (42_alu.md R160). -/
def execOp31 (f : Fields) (s : State) : Host.Outcome State Fault Refusal :=
  runCycle 31 f (resolveGeneral s f) dispatchDefault

end Sys2Proof.Machine
end

