-- ==== Sys2Proof/Machine/Dispatch.lean ====
section
/-! DEFINITION. The dispatch from an instruction to its meaning: one arm per constructor. -/

namespace Sys2Proof.Machine

def exec (i : Instr) (s : State) : Host.Outcome State Fault Refusal :=
  match i with
  | .add f => Sys2Proof.Machine.execAdd f s
  | .sub f => Sys2Proof.Machine.execSub f s
  | .mul f => Sys2Proof.Machine.execMul f s
  | .div f => Sys2Proof.Machine.execDiv f s
  | .or f => Sys2Proof.Machine.execOr f s
  | .and f => Sys2Proof.Machine.execAnd f s
  | .xor f => Sys2Proof.Machine.execXor f s
  | .shiftR f => Sys2Proof.Machine.execShiftR f s
  | .shiftL f => Sys2Proof.Machine.execShiftL f s
  | .je f => Sys2Proof.Machine.execJe f s
  | .jle f => Sys2Proof.Machine.execJle f s
  | .jge f => Sys2Proof.Machine.execJge f s
  | .jl f => Sys2Proof.Machine.execJl f s
  | .jg f => Sys2Proof.Machine.execJg f s
  | .jne f => Sys2Proof.Machine.execJne f s
  | .scan f => Sys2Proof.Machine.execScan f s
  | .ramWrite f => Sys2Proof.Machine.execRamWrite f s
  | .ramRead f => Sys2Proof.Machine.execRamRead f s
  | .output f => Sys2Proof.Machine.execOutput f s
  | .op19 f => Sys2Proof.Machine.execOp19 f s
  | .op20 f => Sys2Proof.Machine.execOp20 f s
  | .op21 f => Sys2Proof.Machine.execOp21 f s
  | .op22 f => Sys2Proof.Machine.execOp22 f s
  | .op23 f => Sys2Proof.Machine.execOp23 f s
  | .op24 f => Sys2Proof.Machine.execOp24 f s
  | .op25 f => Sys2Proof.Machine.execOp25 f s
  | .op26 f => Sys2Proof.Machine.execOp26 f s
  | .op27 f => Sys2Proof.Machine.execOp27 f s
  | .op28 f => Sys2Proof.Machine.execOp28 f s
  | .op29 f => Sys2Proof.Machine.execOp29 f s
  | .op30 f => Sys2Proof.Machine.execOp30 f s
  | .op31 f => Sys2Proof.Machine.execOp31 f s

end Sys2Proof.Machine
end

