-- ==== Sys2Proof/Machine/Step.lean ====
section
/-! DEFINITION. One step request, and placing an instruction for the next one. -/

namespace Sys2Proof.Machine

/-- One step request (40_cycle.md R110, R112, R113, 60_exceptions.md R259): a running core fetches, and executes the
decoded word or halts; a Halted or Faulted core does nothing. -/
def step (s : State) : Host.Outcome State Fault Refusal :=
  match s.run with
  | .running =>
    match fetchWord s with
    | some w => exec (decode w) (recordFetch s w)
    | none => .next (enterHalted s)
  | .halted => .next s
  | .faulted _ => .next s

/-- The state with a table row's bits stored where the next step fetches them. -/
def State.withFetchWord (s : State) (nbits w : Nat) : State := placeWord s (tableContainer nbits w)

end Sys2Proof.Machine
end

