-- ==== Sys2Proof/Machine/Ports.lean ====
section
/-! DEFINITION. What the host does to the block beside requesting steps: construction with its parameters, and console
input (60_exceptions.md R255, R256, R258; 70_reset_and_hazards.md R271). -/

namespace Sys2Proof.Machine

/-- The five parameters of the machine (00_scope.md R7). No rule reads the last two: they stand for the pacing of steps
and the gate on what the host sees of the trace, and the core emits every event (60_exceptions.md R261,
70_reset_and_hazards.md R277). Their types are a DESIGN CHOICE, log entry 16. -/
structure Params where
  /-- PROGRAM, the ROM image. -/
  program : Vector Container 256
  /-- INIT_MEM, the memory contents at construction. -/
  initMem : Vector Byte 256
  /-- INPUT, the tokens the host has supplied. -/
  input : List Token
  /-- CYCLE_DURATION, the scheduler's time units between steps (92_eei_decisions.md D26). -/
  cycleDuration : Nat
  /-- TRACE_THRESHOLD, the least level of trace event that the host is shown (92_eei_decisions.md D27). -/
  traceThreshold : Nat
deriving DecidableEq, Repr

/-- Construction, the only reset the core has (70_reset_and_hazards.md R270 to R273, 10_state.md R36). -/
def State.construct (p : Params) : State :=
  { State.reset with
    rom := cellsFrom 0 p.program.toList
    mem := cellsFrom 0 p.initMem.toList
    input := p.input }

/-- The host appends tokens to the console input channel, at any time (60_exceptions.md R256). -/
def State.supplyInput (s : State) (tokens : List Token) : State := { s with input := s.input ++ tokens }

/-- The instruction at `pc` is a SCAN that no token and no fault lets complete (40_cycle.md R117). -/
def awaitsToken (s : State) : Bool :=
  match fetchWord s with
  | some w =>
    match decode w with
    | .scan f => decide (f.ra.toNat ≤ 16) && s.input.isEmpty
    | _ => false
  | none => false

/-- A step request makes the core perform a step: it is Running and not waiting on SCAN (60_exceptions.md R259). -/
def stepEnabled (s : State) : Bool := decide (s.run = .running) && !awaitsToken s

end Sys2Proof.Machine
end

