-- ==== Sys2Proof/Safety.lean ====
section
/-! DEFINITION. What a good state and a safe run are, in the terms the statements use. -/

namespace Sys2Proof.Machine

/-- What every step keeps of every state it starts from:
storage is in canonical form; a waiting SCAN is a SCAN at `pc` of a running core with operand A in range (40_cycle.md
R117, 41_operands.md R138); a Halted core keeps the out-of-range target it halted on (40_cycle.md R119). -/
structure State.Inv (s : State) : Prop where
  memWf : s.mem.wf = true
  romWf : s.rom.wf = true
  waitIsScan : s.scanWait = true →
    s.run = .running ∧ ∃ w f, fetchWord s = some w ∧ decode w = .scan f ∧ f.ra.toNat ≤ 16
  haltedOutOfRange : s.run = .halted → fetchWord s = none

/-- The core has not left the behaviour the source settles: no model fault has stopped it (60_exceptions.md R246). -/
def State.NotFaulted (s : State) : Prop := ∀ reason, s.run ≠ .faulted reason

/-- A run of `k` step requests that no model fault stops. -/
def SafeFor (k : Nat) (s : State) : Prop :=
  ∃ t, Sys2Proof.core.run k s = .next t ∧ State.NotFaulted t

end Sys2Proof.Machine
end

