-- ==== Sys2Proof/WellFormed.lean ====
section
/-! DEFINITION. The check on instructions: every selector that names a register names one that exists.

No encoding is illegal (30_encoding.md R90, R91) and the widths of the fields are in their types, so this is no
condition of decoding or of execution: an instruction that fails it decodes and runs, and its step is a model fault
(41_operands.md R131, 44_writeback.md R201). It marks the defined ranges of 30_encoding.md R86. Log entry 10. -/

namespace Sys2Proof

/-- `read_a_select` is 0 or names one of the sixteen registers (30_encoding.md R86). -/
def Instr.readADefined (i : Instr) : Bool := (operandsOf i).ra.toNat ≤ 16

/-- `write_select` is 0, or names one of the sixteen registers, or the instruction is RAM_WRITE, whose selectors
1..255 all name a memory cell (30_encoding.md R86). -/
def Instr.writeDefined : Instr → Bool
  | .ramWrite _ => true
  | i => (operandsOf i).ws.toNat ≤ 16

/-- Both register selectors lie in their defined ranges (30_encoding.md R86). -/
def Instr.WellFormed (i : Instr) : Bool := i.readADefined && i.writeDefined

end Sys2Proof
end

