-- ==== Sys2Proof/Certificates/Slice0/Obligations.lean ====
section
/-! DEFINITION. The statements for the provers.

The helpers below say what the spec's rules give, in the spec's own terms (numbers, `mod 2^32`, selectors), beside the
machine's definitions and not through them; they use the machine's state, its read of one byte (`memRead`), its
decoder and encoder, `exec` and `step`. -/

namespace Sys2Proof.Statements

open Sys2Proof.Machine

/-! ### What a step's operands, result and next fetch are -/

/-- `x[k]`, 0 <= k <= 15. -/
def reg (s : State) (k : Nat) : Word := s.regs.toList.getD k 0#32

/-- `path_a` for a selector 0..16 (41_operands.md R130). -/
def specA (s : State) (f : Fields) : Word :=
  if f.ra.toNat = 0 then 0#32 else reg s (f.ra.toNat - 1)

/-- `path_b` of every opcode but SCAN and RAM_READ (41_operands.md R135, R136, R137). -/
def specB (s : State) (f : Fields) : Word :=
  if f.ie = true then BitVec.ofNat 32 f.rb.toNat
  else if 1 ≤ f.rb.toNat ∧ f.rb.toNat ≤ 16 then reg s (f.rb.toNat - 1)
  else 0#32

/-- The warning of a register selector above 16 (60_exceptions.md R242). -/
def specWarn (f : Fields) : List Event :=
  if f.ie = false ∧ 17 ≤ f.rb.toNat then [.selectorOutOfRange f.rb] else []

/-- `path_b` of RAM_READ (41_operands.md R134). -/
def specMem (s : State) (f : Fields) : Word :=
  if f.rb.toNat = 0 then 0#32
  else BitVec.ofNat 32 (memRead s (BitVec.ofNat 8 (f.rb.toNat - 1))).toNat

/-- The space a `ram_mode` bit names (10_state.md R27). -/
def spaceOf (r : Bool) : Mode := match r with
  | false => .rom
  | true => .ram

/-- The next `pc`, by the cases of 45_control_flow.md R218. -/
def specPc (s : State) (f : Fields) (branch : Nat) (out : Word) : Word :=
  if s.mode ≠ spaceOf f.r then out
  else if branch = 0 then s.pc + 1#32
  else if f.r = true ∨ f.g = true then out
  else BitVec.ofNat 32 ((s.pc.toNat + branch) % 256)

/-- The registers after write-back of `out`: the one `ws` names, if it names one, and no other (44_writeback.md R200). -/
def RegsAfter (s t : State) (f : Fields) (out : Word) : Prop :=
  ∀ k < 16, reg t k = if k + 1 = f.ws.toNat then out else reg s k

/-- The write-back event of a register write (60_exceptions.md R262). -/
def specWrite (f : Fields) (out : Word) : List Event :=
  if h : 1 ≤ f.ws.toNat ∧ f.ws.toNat ≤ 16 then [.writeBack (.reg ⟨f.ws.toNat - 1, by omega⟩ out)] else []

/-- What every completed step does to the program counter, the mode, the run state and the program table. -/
structure Advanced (s t : State) (f : Fields) (out : Word) (branch : Nat) : Prop where
  pc : t.pc = specPc s f branch out
  mode : t.mode = spaceOf f.r
  run : t.run = s.run
  rom : t.rom = s.rom

/-- A completed step that may write a register and writes no memory: every register, every byte, and the events. -/
structure RegisterStep (s t : State) (op : Nat) (f : Fields) (a b out : Word) (branch : Byte)
    (warns errs : List Event) : Prop where
  advanced : Advanced s t f out branch.toNat
  regs : RegsAfter s t f out
  mem : ∀ addr, memRead t addr = memRead s addr
  trace : t.trace = s.trace ++ warns ++ [.operandResolve a b] ++ errs
    ++ [.dispatch (BitVec.ofNat 5 op) out branch] ++ specWrite f out ++ [.branchDecision t.mode t.pc]

/-- The console channels and the SCAN wait stay as they were. -/
structure ConsoleUntouched (s t : State) : Prop where
  input : t.input = s.input
  output : t.output = s.output
  scanWait : t.scanWait = s.scanWait

/-- The mask of the opcode field (30_encoding.md R89). -/
def opcodeMask : Container := 0x0000003E00000000#64

/-- Every encoding of `mk` matches opcode `op` (30_encoding.md R89). -/
def MatchesOpcode (mk : Fields → Instr) (op : Nat) : Prop :=
  ∀ f, encode (mk f) &&& opcodeMask = BitVec.ofNat 64 (op * 2 ^ 33)

/-- `mk` is opcode `op`, and with both register selectors in range it completes, writing `trunc32(value(path_a,
path_b))` to the register `ws` names and nothing else, with the error events `errs(path_b)`. -/
def Computes (mk : Fields → Instr) (op : Nat) (value : Nat → Nat → Int) (errs : Nat → List Event) : Prop :=
  MatchesOpcode mk op ∧
  ∀ f s, f.ra.toNat ≤ 16 → f.ws.toNat ≤ 16 →
    ∃ t, exec (mk f) s = .next t
      ∧ RegisterStep s t op f (specA s f) (specB s f)
          (BitVec.ofInt 32 (value (specA s f).toNat (specB s f).toNat)) 0#8 (specWarn f) (errs (specB s f).toNat)
      ∧ ConsoleUntouched s t

/-- `mk` is opcode `op`, and with both register selectors in range it completes, writing the sum to the register `ws`
names, with `branch = jo` exactly where `cond(path_a, path_b)` holds (45_control_flow.md R210). -/
def Compares (mk : Fields → Instr) (op : Nat) (cond : Nat → Nat → Bool) : Prop :=
  MatchesOpcode mk op ∧
  ∀ f s, f.ra.toNat ≤ 16 → f.ws.toNat ≤ 16 →
    ∃ t, exec (mk f) s = .next t
      ∧ RegisterStep s t op f (specA s f) (specB s f)
          (BitVec.ofNat 32 ((specA s f).toNat + (specB s f).toNat))
          (if cond (specA s f).toNat (specB s f).toNat = true then f.jo else 0#8) (specWarn f) []
      ∧ ConsoleUntouched s t

/-! ### Instructions in general -/

/-- Everything about an instruction that its step's completion depends on: both register selectors in their defined
ranges and, for SCAN, an integer token at the head of the input. -/
def TokenReady (i : Instr) (s : State) : Prop :=
  opcodeOf i = 15#5 → ∃ n rest, s.input = .integer n :: rest

/-- The instruction's step completes: neither a model fault nor a wait. -/
def CanComplete (i : Instr) (s : State) : Prop := i.WellFormed = true ∧ TokenReady i s

/-- The events a step adds to the trace. -/
def newEvents (s t : State) : List Event := t.trace.drop s.trace.length

/-- The step from `s` to `t` dispatched `i` with this `output` and `branch` (60_exceptions.md R262). -/
def Dispatched (i : Instr) (s t : State) (out : Word) (branch : Byte) : Prop :=
  .dispatch (opcodeOf i) out branch ∈ newEvents s t

/-- The opcode map of 30_encoding.md R89 as a list: value and constructor. -/
def opcodeMap : List (Nat × (Fields → Instr)) :=
  [(0, .add), (1, .sub), (2, .mul), (3, .div), (4, .or), (5, .and), (6, .xor), (7, .shiftR), (8, .shiftL), (9, .je),
   (10, .jle), (11, .jge), (12, .jl), (13, .jg), (14, .jne), (15, .scan), (16, .ramWrite), (17, .ramRead),
   (18, .output), (19, .op19), (20, .op20), (21, .op21), (22, .op22), (23, .op23), (24, .op24), (25, .op25),
   (26, .op26), (27, .op27), (28, .op28), (29, .op29), (30, .op30), (31, .op31)]

/-- A trace event less the bits of a fetched word that no field holds (30_encoding.md R82). -/
def decodedPart : Event → Event
  | .fetch m pc w => .fetch m pc (w &&& 0xFFFFFFFFFF#64)
  | e => e

/-- Two states that differ at most in what no instruction reads: bits 63..40 of program-table words, the byte M[255],
and those bits of fetched words in the trace. -/
structure SameToPrograms (s t : State) : Prop where
  regs : t.regs = s.regs
  pc : t.pc = s.pc
  mode : t.mode = s.mode
  run : t.run = s.run
  scanWait : t.scanWait = s.scanWait
  rom : ∀ i, (romWord t i) &&& 0xFFFFFFFFFF#64 = (romWord s i) &&& 0xFFFFFFFFFF#64
  mem : ∀ a : Byte, a ≠ 255#8 → memRead t a = memRead s a
  input : t.input = s.input
  output : t.output = s.output
  trace : t.trace.map decodedPart = s.trace.map decodedPart

/-- The instruction `i` with its `goto` bit set to `b`. -/
def withGoto (i : Instr) (b : Bool) : Instr := instrOf (opcodeOf i) { operandsOf i with g := b }

/-- The instruction `i` with another jump offset. -/
def withJumpOffset (i : Instr) (jo : Byte) : Instr := instrOf (opcodeOf i) { operandsOf i with jo := jo }

end Sys2Proof.Statements

open Sys2Proof Sys2Proof.Machine Sys2Proof.Statements

/-! ### Encoding -/

/-- 30_encoding.md R84: the encoder is the sum of the shifted fields with bits 63..40 zero, decoding it gives the
instruction back, and encoding what any word decodes to gives the word's low 40 bits. -/
def Obligations.DecodeEncodeLossless : Prop :=
  (∀ i : Instr, decode (encode i) = i)
  ∧ (∀ w : Container, encode (decode w) = w &&& 0xFFFFFFFFFF#64)
  ∧ ∀ i : Instr, (encode i).toNat =
      (operandsOf i).g.toNat * 2 ^ 39 + (operandsOf i).r.toNat * 2 ^ 38 + (opcodeOf i).toNat * 2 ^ 33
        + (operandsOf i).jo.toNat * 2 ^ 25 + (operandsOf i).ws.toNat * 2 ^ 17 + (operandsOf i).ra.toNat * 2 ^ 9
        + (operandsOf i).ie.toNat * 2 ^ 8 + (operandsOf i).rb.toNat

/-- 30_encoding.md R83: every 64-bit word decodes, each field being the bits at its place. -/
def Obligations.DecodeReadsEveryField : Prop :=
  ∀ w : Container,
    (operandsOf (decode w)).g.toNat = w.toNat / 2 ^ 39 % 2
    ∧ (operandsOf (decode w)).r.toNat = w.toNat / 2 ^ 38 % 2
    ∧ (opcodeOf (decode w)).toNat = w.toNat / 2 ^ 33 % 2 ^ 5
    ∧ (operandsOf (decode w)).jo.toNat = w.toNat / 2 ^ 25 % 2 ^ 8
    ∧ (operandsOf (decode w)).ws.toNat = w.toNat / 2 ^ 17 % 2 ^ 8
    ∧ (operandsOf (decode w)).ra.toNat = w.toNat / 2 ^ 9 % 2 ^ 8
    ∧ (operandsOf (decode w)).ie.toNat = w.toNat / 2 ^ 8 % 2
    ∧ (operandsOf (decode w)).rb.toNat = w.toNat % 2 ^ 8

/-- 30_encoding.md R89: a word whose opcode field holds `n` decodes to the instruction the map gives `n`, every
encoding of that instruction matches `n << 33` under the mask, and the map covers every word. -/
def Obligations.OpcodeFieldSelectsInstruction : Prop :=
  (∀ p ∈ opcodeMap, MatchesOpcode p.2 p.1
    ∧ ∀ w : Container, w &&& opcodeMask = BitVec.ofNat 64 (p.1 * 2 ^ 33) → ∃ f, decode w = p.2 f)
  ∧ ∀ w : Container, ∃ p ∈ opcodeMap, w &&& opcodeMask = BitVec.ofNat 64 (p.1 * 2 ^ 33)

/-- Words that agree in bits 39..0 decode alike. The layout is the spec's own decision D1, which 30_encoding.md marks
in "bits 63..40 of the container are not part of any field"; log entry 11. -/
def Obligations.UpperBitsDoNotDecode : Prop :=
  ∀ w v : Container, w &&& 0xFFFFFFFFFF#64 = v &&& 0xFFFFFFFFFF#64 → decode w = decode v

/-- A few of the spec's words (30_encoding.md section 1, 95_test_vectors.md section 2): the worked encoding 0x40305,
V66, V51, V57 and V91. A sanity statement. -/
def Obligations.SampleWordsDecode : Prop :=
  decode 0x0000000000040305#64 = .add { g := false, r := false, jo := 0, ws := 2, ra := 1, ie := true, rb := 5 }
  ∧ decode 0x0000001208040303#64 = .je { g := false, r := false, jo := 4, ws := 2, ra := 1, ie := true, rb := 3 }
  ∧ decode 0x0000002000080107#64
      = .ramWrite { g := false, r := false, jo := 0, ws := 4, ra := 0, ie := true, rb := 7 }
  ∧ decode 0x0000002200040204#64
      = .ramRead { g := false, r := false, jo := 0, ws := 2, ra := 1, ie := false, rb := 4 }
  ∧ decode 0x000000D602000302#64 = .jge { g := true, r := true, jo := 1, ws := 0, ra := 1, ie := true, rb := 2 }

/-! ### Fetch and the step -/

/-- A running core executes the decoded word it fetches, on the state as it stands but for the fetch event; the
instruction of a waiting SCAN was fetched already and has its event (model's choice, log entry 6). -/
def Obligations.StepRunsDecodedInstruction : Prop :=
  ∀ (s : State) (w : Container), s.run = .running → fetchWord s = some w →
    step s = exec (decode w)
      (if s.scanWait then s else { s with trace := s.trace ++ [.fetch s.mode s.pc w] })

/-- 20_memory.md R55: in ROM mode the word at index `pc` of the program table is fetched, for `pc <= 255`; any other
index is AddressOutOfRange, which halts a running core. -/
def Obligations.RomFetchIndexesProgramTable : Prop :=
  ∀ s : State, s.mode = .rom →
    (s.pc.toNat < 256 → fetchWord s = some (romWord s s.pc.toNat))
    ∧ (256 ≤ s.pc.toNat → fetchWord s = none
        ∧ (s.run = .running → ∃ t, step s = .next t ∧ t.run = .halted
            ∧ t.trace = s.trace ++ [.addressOutOfRange .rom s.pc]))

/-- In RAM mode the eight bytes from `8 * pc` on are fetched, the least significant at the lowest address, for
`pc <= 31`, and byte `8k + j` is bits `8j+7..8j` of the word of slot `k`. The address `8 * pc` is the spec's own
decision D10 (20_memory.md section 2, "`pc` is the slot index and the byte address is always a multiple of 8"). -/
def Obligations.RamFetchIsLittleEndianSlot : Prop :=
  ∀ s : State, s.mode = .ram →
    (s.pc.toNat ≤ 31 → ∃ w, fetchWord s = some w
      ∧ w.toNat = ((List.range 8).map fun j =>
          (memRead s (BitVec.ofNat 8 (8 * s.pc.toNat + j))).toNat * 2 ^ (8 * j)).sum
      ∧ ∀ j < 8, w.extractLsb' (8 * j) 8 = memRead s (BitVec.ofNat 8 (8 * s.pc.toNat + j)))
    ∧ (32 ≤ s.pc.toNat → fetchWord s = none)

/-- 60_exceptions.md R241: a fetch with `pc > 255` in ROM mode or `pc > 31` in RAM mode records the error event with
the space and the `pc`, and halts the core; everything else keeps its value, and there is no further step. -/
def Obligations.OutOfRangeFetchHalts : Prop :=
  ∀ s : State, s.run = .running →
    (s.mode = .rom ∧ 255 < s.pc.toNat ∨ s.mode = .ram ∧ 248 < 8 * s.pc.toNat) →
    ∃ t, step s = .next t ∧ t.run = .halted ∧ t.trace = s.trace ++ [.addressOutOfRange s.mode s.pc]
      ∧ t.pc = s.pc ∧ t.mode = s.mode ∧ t.regs = s.regs ∧ t.rom = s.rom ∧ t.scanWait = s.scanWait
      ∧ (∀ a, memRead t a = memRead s a) ∧ ConsoleUntouched s t ∧ step t = .next t

/-- A core that is Halted or Faulted stays exactly as it is under any number of step requests (60_exceptions.md
section 4 "A request while `Halted` or `Faulted` does nothing"; 40_cycle.md section 3, decisions D15 and D5). -/
def Obligations.EndedRunIgnoresRequests : Prop :=
  ∀ (k : Nat) (s : State), s.run ≠ .running → Sys2Proof.core.run k s = .next s

/-- Every step request is answered by a state: nothing is refused, and no condition leaves the machine without one
(60_exceptions.md section 1, 30_encoding.md section 4). That three of these answers are states at all is the model's
reading: a model fault answers a Faulted state (log entry 4), a SCAN without a token a waiting state, where the spec
calls the step not enabled (log entry 6), and a core whose run has ended the same state (log entry 13). -/
def Obligations.EveryRequestAnswersState : Prop :=
  ∀ (k : Nat) (s : State), ∃ t, Sys2Proof.core.run k s = .next t

/-- A running core halts exactly on an out-of-range fetch: no instruction halts it (60_exceptions.md section 1 "only
the fetch-address check can transition the machine to its terminal state"). -/
def Obligations.OnlyFetchHalts : Prop :=
  ∀ s t : State, s.run = .running → step s = .next t → (t.run = .halted ↔ fetchWord s = none)

/-- The word placed for the next step is the one it fetches and executes, from any state (the model's own loading
operation, log entries 1 and 9). -/
def Obligations.PlacedWordIsExecuted : Prop :=
  ∀ (s : State) (nbits w : Nat), ∃ c i,
    fetchWord (s.withFetchWord nbits w) = some c ∧ c.toNat = w % 2 ^ nbits % 2 ^ 64
    ∧ decodeTableWord nbits w = some i ∧ decode c = i
    ∧ step (s.withFetchWord nbits w) = exec i (recordFetch (s.withFetchWord nbits w) c)

/-! ### Construction -/

/-- What construction leaves, for every program image, memory image and console input (70_reset_and_hazards.md section
1, 10_state.md section 7). `pc = 0` is the spec's own decision D7 ("`pc = 0` is [decision"), INIT_MEM its decision D8;
that the trace is empty is the model's reading, log entry 8. -/
def Obligations.ConstructionState : Prop :=
  ∀ p : Params,
    (∀ k < 16, reg (State.construct p) k = 0#32)
    ∧ (∀ a : Byte, memRead (State.construct p) a = p.initMem.toList.getD a.toNat 0#8)
    ∧ (∀ k < 256, romWord (State.construct p) k = p.program.toList.getD k 0#64)
    ∧ (State.construct p).mode = .rom ∧ (State.construct p).pc = 0#32 ∧ (State.construct p).run = .running
    ∧ (State.construct p).scanWait = false ∧ (State.construct p).input = p.input
    ∧ (State.construct p).output = [] ∧ (State.construct p).trace = []

/-- The first step executes entry 0 of the program image, on the constructed state with the fetch event recorded
(70_reset_and_hazards.md section 1). The entry point is the spec's own decision D7; that the fetch event is the whole
trace rests on the model's choice that the trace is empty at construction, log entry 8. -/
def Obligations.FirstStepRunsEntryZero : Prop :=
  ∀ p : Params, ∃ s', step (State.construct p) = exec (decode (p.program.toList.getD 0 0#64)) s'
    ∧ s' = { State.construct p with trace := [.fetch .rom 0#32 (p.program.toList.getD 0 0#64)] }

/-! ### Opcodes -/

/-- 42_alu.md R151, R160: ADD, and each of the thirteen unassigned opcodes exactly as ADD, writes the sum modulo 2^32
to the register `ws` names and leaves everything else alone. -/
def Obligations.DefaultSumOpcodes : Prop :=
  Computes .add 0 (fun a b => a + b) (fun _ => [])
  ∧ Computes .op19 19 (fun a b => a + b) (fun _ => []) ∧ Computes .op20 20 (fun a b => a + b) (fun _ => [])
  ∧ Computes .op21 21 (fun a b => a + b) (fun _ => []) ∧ Computes .op22 22 (fun a b => a + b) (fun _ => [])
  ∧ Computes .op23 23 (fun a b => a + b) (fun _ => []) ∧ Computes .op24 24 (fun a b => a + b) (fun _ => [])
  ∧ Computes .op25 25 (fun a b => a + b) (fun _ => []) ∧ Computes .op26 26 (fun a b => a + b) (fun _ => [])
  ∧ Computes .op27 27 (fun a b => a + b) (fun _ => []) ∧ Computes .op28 28 (fun a b => a + b) (fun _ => [])
  ∧ Computes .op29 29 (fun a b => a + b) (fun _ => []) ∧ Computes .op30 30 (fun a b => a + b) (fun _ => [])
  ∧ Computes .op31 31 (fun a b => a + b) (fun _ => [])

/-- 42_alu.md R152, R153: SUB and MUL write the difference and the product modulo 2^32. -/
def Obligations.SubtractAndMultiply : Prop :=
  Computes .sub 1 (fun a b => (a : Int) - b) (fun _ => []) ∧ Computes .mul 2 (fun a b => a * b) (fun _ => [])

/-- 42_alu.md R154, 60_exceptions.md R243: DIV writes the unsigned quotient; by zero it records one DivideByZero event
and writes 256, whatever `path_a` is, and the step completes as any other. -/
def Obligations.DivideOrSentinel : Prop :=
  Computes .div 3 (fun a b => if b = 0 then 256 else (a / b : Nat))
    (fun b => if b = 0 then [.divideByZero] else [])

/-- 42_alu.md R155, R156, R157: OR, AND and XOR write the bitwise combination. -/
def Obligations.BitwiseOpcodes : Prop :=
  Computes .or 4 (fun a b => (a ||| b : Nat)) (fun _ => [])
  ∧ Computes .and 5 (fun a b => (a &&& b : Nat)) (fun _ => [])
  ∧ Computes .xor 6 (fun a b => (a ^^^ b : Nat)) (fun _ => [])

/-- SHIFT_R and SHIFT_L shift the wrapped sum by one bit (42_alu.md section 2). That the sum wraps before the shift is
the spec's own decision D2 ("the sum wraps before the shift"). -/
def Obligations.ShiftsActOnTheSum : Prop :=
  Computes .shiftR 7 (fun a b => ((a + b) % 2 ^ 32 / 2 : Nat)) (fun _ => [])
  ∧ Computes .shiftL 8 (fun a b => ((a + b) % 2 ^ 32 * 2 : Nat)) (fun _ => [])

/-- 45_control_flow.md R210 to R216: the six comparisons compare unsigned, write the default sum back, and take the
branch exactly where their relation holds. -/
def Obligations.ComparisonOpcodes : Prop :=
  Compares .je 9 (fun a b => decide (a = b)) ∧ Compares .jle 10 (fun a b => decide (a ≤ b))
  ∧ Compares .jge 11 (fun a b => decide (a ≥ b)) ∧ Compares .jl 12 (fun a b => decide (a < b))
  ∧ Compares .jg 13 (fun a b => decide (a > b)) ∧ Compares .jne 14 (fun a b => decide (a ≠ b))

/-- SCAN (43_memory_io.md section 1): with an integer token it completes, takes that token and writes `path_a` plus
its value, an integer outside 0..2^32-1 counting as 0 with a warning; with no token it waits, changing nothing but the
wait itself; with a malformed token it is a model fault. SCAN_MAX, malformed tokens and the wait are the spec's own
decisions D12 and D13; how the wait stands in the state is the model's choice, log entry 6; that the Faulted core has
taken the token and keeps its `pc`, mode, program table and trace, no wait left, is the model's choice, log entry 5.
An integer token with `ws` above 16 is WriteSelectorFaultsAfterDispatch's. -/
def Obligations.ScanTakesOneToken : Prop :=
  MatchesOpcode .scan 15
  ∧ ∀ (f : Fields) (s : State), f.ra.toNat ≤ 16 →
    (∀ n rest, s.input = .integer n :: rest → f.ws.toNat ≤ 16 →
      ∃ t v, exec (.scan f) s = .next t ∧ v = (if 0 ≤ n ∧ n ≤ 2 ^ 32 - 1 then n else 0)
        ∧ RegisterStep s t 15 f (specA s f) (BitVec.ofInt 32 v) (BitVec.ofInt 32 ((specA s f).toNat + v)) 0#8
            (if 0 ≤ n ∧ n ≤ 2 ^ 32 - 1 then [] else [.scanOutOfRange n]) []
        ∧ t.input = rest ∧ t.output = s.output ∧ t.scanWait = false)
    ∧ (s.input = [] → exec (.scan f) s = .next { s with scanWait := true })
    ∧ (∀ rest, s.input = .malformed :: rest →
        ∃ t, exec (.scan f) s = .next t ∧ t.run = .faulted .malformedInput ∧ t.input = rest
          ∧ t.pc = s.pc ∧ t.mode = s.mode ∧ t.rom = s.rom ∧ t.scanWait = false ∧ t.trace = s.trace)

/-- RAM_WRITE (43_memory_io.md section 2): the low byte of the sum is stored at `ws - 1` where `ws` is not 0, every
other byte and every register stays, and the whole sum is emitted whatever `ws` is. The low byte and the emitted value
are the spec's own decisions D3 and D14; the write's place in the trace is the model's reading, log entry 7. -/
def Obligations.RamWriteStoresAndEmits : Prop :=
  MatchesOpcode .ramWrite 16
  ∧ ∀ (f : Fields) (s : State), f.ra.toNat ≤ 16 →
    ∃ t out, exec (.ramWrite f) s = .next t
      ∧ out = BitVec.ofNat 32 ((specA s f).toNat + (specB s f).toNat)
      ∧ (∀ a : Byte, memRead t a = if a.toNat + 1 = f.ws.toNat then BitVec.ofNat 8 out.toNat else memRead s a)
      ∧ t.output = s.output ++ [out] ∧ t.regs = s.regs ∧ t.input = s.input ∧ t.scanWait = s.scanWait
      ∧ Advanced s t f out 0
      ∧ t.trace = s.trace ++ specWarn f ++ [.operandResolve (specA s f) (specB s f)] ++ [.dispatch 16#5 out 0#8]
          ++ (if f.ws.toNat = 0 then []
              else [.writeBack (.mem (BitVec.ofNat 8 (f.ws.toNat - 1)) (BitVec.ofNat 8 out.toNat))])
          ++ [.branchDecision t.mode t.pc]

/-- RAM_READ (43_memory_io.md section 3): the byte at `rb - 1`, zero-extended, or 0 for `rb = 0`, is added to
`path_a`, whatever `ie` is. Zero extension is the spec's own decision D4. -/
def Obligations.RamReadAddsByte : Prop :=
  MatchesOpcode .ramRead 17
  ∧ ∀ (f : Fields) (s : State), f.ra.toNat ≤ 16 → f.ws.toNat ≤ 16 →
    ∃ t, exec (.ramRead f) s = .next t
      ∧ RegisterStep s t 17 f (specA s f) (specMem s f)
          (BitVec.ofNat 32 ((specA s f).toNat + (specMem s f).toNat)) 0#8 [] []
      ∧ ConsoleUntouched s t

/-- 43_memory_io.md R185: OUTPUT emits the sum on the console output channel and writes it back as any opcode does. -/
def Obligations.OutputEmitsSum : Prop :=
  MatchesOpcode .output 18
  ∧ ∀ (f : Fields) (s : State), f.ra.toNat ≤ 16 → f.ws.toNat ≤ 16 →
    ∃ t out, exec (.output f) s = .next t
      ∧ out = BitVec.ofNat 32 ((specA s f).toNat + (specB s f).toNat)
      ∧ RegisterStep s t 18 f (specA s f) (specB s f) out 0#8 (specWarn f) []
      ∧ t.output = s.output ++ [out] ∧ t.input = s.input ∧ t.scanWait = s.scanWait

/-! ### Selectors out of range -/

/-- Every instruction with `ra` in 17..255 is a model fault before anything else of its step happens, a SCAN's token
among it. The fault is the spec's own decision D5, the order its decision D25 (41_operands.md sections 1 and 3); that
the Faulted core keeps its `pc`, mode, program table, input, wait and trace is the model's choice, log entry 5, and
that the fault is a next state its reading, log entry 4. -/
def Obligations.ReadASelectorFaultsFirst : Prop :=
  ∀ (i : Instr) (s : State), 17 ≤ (operandsOf i).ra.toNat →
    ∃ t, exec i s = .next t ∧ t.run = .faulted (.readASelectorOutOfRange (operandsOf i).ra)
      ∧ t.pc = s.pc ∧ t.mode = s.mode ∧ t.rom = s.rom ∧ t.input = s.input ∧ t.scanWait = s.scanWait
      ∧ t.trace = s.trace

/-- Every instruction but RAM_WRITE with `ws` in 17..255 is a model fault after its dispatch. The fault is the spec's
own decision D6 (44_writeback.md); that the Faulted core keeps its `pc`, mode and program table, and the events up to
the dispatch, is the model's choice, log entry 5, and that the fault is a next state its reading, log entry 4. -/
def Obligations.WriteSelectorFaultsAfterDispatch : Prop :=
  ∀ (i : Instr) (s : State), opcodeOf i ≠ 16#5 → (operandsOf i).ra.toNat ≤ 16 → TokenReady i s →
    17 ≤ (operandsOf i).ws.toNat →
    ∃ t pre out branch, exec i s = .next t
      ∧ t.run = .faulted (.writeSelectorOutOfRange (operandsOf i).ws)
      ∧ t.pc = s.pc ∧ t.mode = s.mode ∧ t.rom = s.rom
      ∧ t.trace = s.trace ++ pre ++ [.dispatch (opcodeOf i) out branch]

/-- From a running core, an instruction leads to a Faulted one in exactly the three cases of 60_exceptions.md section
1 (the spec's own decisions D5, D6 and D12), and otherwise leaves the core running. -/
def Obligations.ModelFaultsAreExactlyThree : Prop :=
  ∀ (i : Instr) (s t : State), s.run = .running → exec i s = .next t →
    (∀ reason, t.run = .faulted reason ↔
      (reason = .readASelectorOutOfRange (operandsOf i).ra ∧ 17 ≤ (operandsOf i).ra.toNat)
      ∨ (reason = .malformedInput ∧ (operandsOf i).ra.toNat ≤ 16 ∧ opcodeOf i = 15#5
          ∧ ∃ rest, s.input = .malformed :: rest)
      ∨ (reason = .writeSelectorOutOfRange (operandsOf i).ws ∧ (operandsOf i).ra.toNat ≤ 16
          ∧ 17 ≤ (operandsOf i).ws.toNat ∧ opcodeOf i ≠ 16#5 ∧ TokenReady i s))
    ∧ (t.run = .running ∨ ∃ reason, t.run = .faulted reason)

/-- 60_exceptions.md R242: with operand B a register selector in 17..255, for every opcode but SCAN and RAM_READ, the
resolver warns with the selector, `path_b` is 0 and the step continues: where the write selector is in range, it
completes. -/
def Obligations.SelectorWarningContinues : Prop :=
  ∀ (i : Instr) (s : State), opcodeOf i ≠ 15#5 → opcodeOf i ≠ 17#5 → (operandsOf i).ie = false →
    17 ≤ (operandsOf i).rb.toNat → (operandsOf i).ra.toNat ≤ 16 →
    ∃ t a rest, exec i s = .next t
      ∧ t.trace = s.trace ++ .selectorOutOfRange (operandsOf i).rb :: .operandResolve a 0#32 :: rest
      ∧ (i.WellFormed = true → t.run = s.run ∧ t.mode = spaceOf (operandsOf i).r)

/-! ### Write-back, control flow and the trace, over every instruction -/

/-- 44_writeback.md R200: a step that is not RAM_WRITE writes its `output` to the register `ws` names and to no other,
none for `ws = 0`, and is a model fault for `ws` above 16; RAM_WRITE writes no register. -/
def Obligations.WriteBackCommitsOutput : Prop :=
  ∀ (i : Instr) (s : State), (operandsOf i).ra.toNat ≤ 16 → TokenReady i s →
    ∃ t out branch, exec i s = .next t ∧ Dispatched i s t out branch
      ∧ (opcodeOf i = 16#5 → t.regs = s.regs)
      ∧ (opcodeOf i ≠ 16#5 → (operandsOf i).ws.toNat ≤ 16 → RegsAfter s t (operandsOf i) out)
      ∧ (opcodeOf i ≠ 16#5 → 17 ≤ (operandsOf i).ws.toNat →
          t.run = .faulted (.writeSelectorOutOfRange (operandsOf i).ws))

/-- 45_control_flow.md R217: every completed step chooses its next `pc` and mode from the mode, the `pc`, the `r` and
`g` bits, `branch` and `output` as the rule decides, and the next step fetches there. -/
def Obligations.NextFetchTarget : Prop :=
  ∀ (i : Instr) (s : State), CanComplete i s →
    ∃ t out branch, exec i s = .next t ∧ Dispatched i s t out branch
      ∧ Advanced s t (operandsOf i) out branch.toNat
      ∧ (s.run = .running → step t =
          match fetchWord t with
          | some w => exec (decode w) (recordFetch t w)
          | none => .next (enterHalted t))

/-- The decision of 45_control_flow.md R217 as the machine computes it equals the closed form that section 2 of that
file derives from it ("Rule R217 is equal to this closed form"). -/
def Obligations.NextPcClosedForm : Prop :=
  ∀ (s : State) (f : Fields) (branch : Byte) (out : Word),
    nextPc s.mode s.pc f.r f.g branch out = (specPc s f branch.toNat out, spaceOf f.r)

/-- 45_control_flow.md R222: a completed step whose `ram_mode` bit differs from the mode, whatever its opcode and
whatever its branch, goes to `output` in the space the bit names: the next fetch reads program entry `output`, or the
eight bytes of memory from `8 * output` on. -/
def Obligations.SpaceSwitchGoesToOutput : Prop :=
  ∀ (i : Instr) (s : State), CanComplete i s → s.mode ≠ spaceOf (operandsOf i).r →
    ∃ t out branch, exec i s = .next t ∧ Dispatched i s t out branch
      ∧ t.mode = spaceOf (operandsOf i).r ∧ t.pc = out
      ∧ (t.mode = .rom → out.toNat ≤ 255 → fetchWord t = some (romWord t out.toNat))
      ∧ (t.mode = .ram → out.toNat ≤ 31 → ∃ w, fetchWord t = some w
          ∧ ∀ j < 8, w.extractLsb' (8 * j) 8 = memRead t (BitVec.ofNat 8 (8 * out.toNat + j)))

/-- 45_control_flow.md R221: a taken branch with `r = g = 0` in ROM mode goes to `(pc + jo) mod 256`, stays in ROM
space, and is a target the next fetch accepts; every other step goes to `pc + 1` or to `output`. -/
def Obligations.RelativeBranchNeverHalts : Prop :=
  ∀ (i : Instr) (s t : State) (out : Word) (branch : Byte), CanComplete i s → exec i s = .next t →
    Dispatched i s t out branch →
    if s.mode = .rom ∧ (operandsOf i).r = false ∧ (operandsOf i).g = false ∧ branch ≠ 0#8 then
      9 ≤ (opcodeOf i).toNat ∧ (opcodeOf i).toNat ≤ 14 ∧ branch = (operandsOf i).jo
        ∧ t.pc.toNat = (s.pc.toNat + (operandsOf i).jo.toNat) % 256 ∧ t.mode = .rom
        ∧ ∃ w, fetchWord t = some w
    else t.pc = s.pc + 1#32 ∨ t.pc = out

/-- Without a taken branch, or with `r = 1`, or in RAM mode, the `goto` bit changes nothing at all (45_control_flow.md
section 2 "`g` changes the outcome only when `mode = r = 0` and `branch != 0`"). Where the two steps are model faults,
that what the spec leaves unspecified is equal in both is the model's choice: its free values are a function of the
state at the fault and the reason, log entry 4. -/
def Obligations.GotoBitNeedsTakenBranch : Prop :=
  ∀ (i : Instr) (s t : State) (b : Bool), exec i s = .next t →
    (s.mode = .ram ∨ (operandsOf i).r = true ∨ ∀ out branch, Dispatched i s t out branch → branch = 0#8) →
    exec (withGoto i b) s = .next t

/-- The fields an opcode does not read change nothing: `ie` and `rb` for SCAN, `ie` for RAM_READ, `jo` for everything
but the comparisons (30_encoding.md section 3, the table of the fields each opcode reads). Where the two steps are
model faults, that what the spec leaves unspecified is equal in both is the model's choice: its free values are a
function of the state at the fault and the reason, log entry 4. -/
def Obligations.UnreadFieldsDoNotMatter : Prop :=
  (∀ (f : Fields) (s : State) (ie : Bool) (rb : Byte),
    exec (.scan { f with ie := ie, rb := rb }) s = exec (.scan f) s
    ∧ exec (.ramRead { f with ie := ie }) s = exec (.ramRead f) s)
  ∧ ∀ (i : Instr) (s : State) (jo : Byte), (opcodeOf i).toNat < 9 ∨ 14 < (opcodeOf i).toNat →
      exec (withJumpOffset i jo) s = exec i s

/-- The events of one completed step, in their order: fetch, at most one warning, operand-resolve, at most one error,
dispatch, at most one write, whose value the state then holds, and branch-decision (60_exceptions.md section 4). The
events and their order are the spec's own decision D18; that a memory write's event comes after the dispatch event and
carries the byte stored is the model's reading, log entry 7. Which warning and which place of a write belong to which
instruction is said by the statements of the opcodes. -/
def Obligations.EventsOfCompletedStep : Prop :=
  ∀ (s : State) (w : Container), s.run = .running → s.scanWait = false → fetchWord s = some w →
    CanComplete (decode w) s →
    ∃ t warns a b errs out branch writes, step s = .next t
      ∧ t.trace = s.trace ++ [.fetch s.mode s.pc w] ++ warns ++ [.operandResolve a b] ++ errs
          ++ [.dispatch (opcodeOf (decode w)) out branch] ++ writes ++ [.branchDecision t.mode t.pc]
      ∧ (warns = [] ∨ (∃ rb, warns = [.selectorOutOfRange rb]) ∨ ∃ n, warns = [.scanOutOfRange n])
      ∧ (errs = [] ∨ errs = [.divideByZero] ∧ b = 0#32 ∧ out = 256#32)
      ∧ (writes = []
          ∨ (∃ i : Fin 16, writes = [.writeBack (.reg i out)] ∧ reg t i.val = out)
          ∨ (∃ (c : Byte) (v : Byte), writes = [.writeBack (.mem c v)] ∧ memRead t c = v
              ∧ v = BitVec.ofNat 8 out.toNat))

/-! ### The whole machine -/

/-- 20_memory.md R56: no step, of whatever instruction and however it ends, changes the program table; a ROM-mode
fetch reads it directly; and the memory at construction does not depend on it. -/
def Obligations.ProgramTableIsReadOnly : Prop :=
  (∀ s t : State, step s = .next t → ∀ k, romWord t k = romWord s k)
  ∧ (∀ s : State, s.mode = .rom → s.pc.toNat ≤ 255 → fetchWord s = some (romWord s s.pc.toNat))
  ∧ ∀ (p q : Params) (a : Byte), p.initMem = q.initMem →
      memRead (State.construct p) a = memRead (State.construct q) a

/-- A step that no model fault stops changes at most the register `ws - 1` and no byte, or, for RAM_WRITE, at most the
byte `ws - 1` and no register (44_writeback.md, "a step writes at most one register, or at most one memory byte, never
both", an inference that file marks as its own). -/
def Obligations.OneWritePerStep : Prop :=
  ∀ (i : Instr) (s t : State), exec i s = .next t → t.NotFaulted →
    (opcodeOf i ≠ 16#5 → (∀ a, memRead t a = memRead s a)
      ∧ ∀ k < 16, k + 1 ≠ (operandsOf i).ws.toNat → reg t k = reg s k)
    ∧ (opcodeOf i = 16#5 → (∀ k < 16, reg t k = reg s k)
      ∧ ∀ a : Byte, a.toNat + 1 ≠ (operandsOf i).ws.toNat → memRead t a = memRead s a)

/-- No step that no model fault stops changes M[255] (20_memory.md section 1, an inference the spec marks as its own:
"no instruction's behaviour depends on it"). -/
def Obligations.TopByteIsNeverWritten : Prop :=
  ∀ s t : State, step s = .next t → t.NotFaulted → memRead t 255#8 = memRead s 255#8

/-- Only OUTPUT and RAM_WRITE write the console output log, each appending its 32-bit `output` (60_exceptions.md
section 4; the form of the value is the spec's own decision D14). -/
def Obligations.ConsoleOutputByTwoOpcodes : Prop :=
  ∀ (i : Instr) (s t : State), exec i s = .next t → t.NotFaulted →
    if opcodeOf i = 16#5 ∨ opcodeOf i = 18#5 then
      ∃ out branch, Dispatched i s t out branch ∧ t.output = s.output ++ [out]
    else t.output = s.output

/-- Only a SCAN takes a console token, and it takes the first one (60_exceptions.md section 4; what a token is, is the
spec's own decision D17). -/
def Obligations.OnlyScanTakesTokens : Prop :=
  ∀ (i : Instr) (s t : State), exec i s = .next t →
    t.input = s.input ∨ (opcodeOf i = 15#5 ∧ ∃ token, s.input = token :: t.input)

/-- A byte that RAM_WRITE stores in the slot the next step fetches is in the word that step fetches, with nothing
between (20_memory.md section 5, an inference the spec marks as its own: "A RAM_WRITE in step `n` is seen by every
RAM-mode fetch in step `n+1`"). -/
def Obligations.StoreSeenByNextFetch : Prop :=
  ∀ (f : Fields) (s t : State), exec (.ramWrite f) s = .next t → f.ra.toNat ≤ 16 → 1 ≤ f.ws.toNat →
    t.mode = .ram → t.pc.toNat = (f.ws.toNat - 1) / 8 →
    ∃ w, fetchWord t = some w
      ∧ w.extractLsb' (8 * ((f.ws.toNat - 1) % 8)) 8
          = BitVec.ofNat 8 ((specA s f).toNat + (specB s f).toNat)

/-- A SCAN that finds no token waits without trace but for its fetch event; more requests change nothing; and once
tokens come, the step is the one it would have been had they been there at the start (40_cycle.md section 3, the
spec's own decision D13). How the wait stands in the state is the model's choice, log entry 6. Where that step is a
model fault (a malformed token, or `ws` above 16), that what the spec leaves unspecified is equal in both runs is the
model's choice: its free values are a function of the state at the fault and the reason, log entry 4. -/
def Obligations.ScanWaitIsTransparent : Prop :=
  ∀ s : State, s.run = .running → s.scanWait = false → awaitsToken s = true →
    ∃ t w, fetchWord s = some w ∧ step s = .next t
      ∧ t = { s with scanWait := true, trace := s.trace ++ [.fetch s.mode s.pc w] }
      ∧ (∀ k, Sys2Proof.core.run k t = .next t)
      ∧ ∀ tokens, tokens ≠ [] → step (t.supplyInput tokens) = step (s.supplyInput tokens)

/-- What no field holds never matters: two cores that differ at most in bits 63..40 of program words and in M[255]
answer a step request by two such cores, or both by the same model fault (30_encoding.md section 1 and 20_memory.md
section 1, the spec's own decision D1 and an inference of its own). -/
def Obligations.IgnoredBitsNeverMatter : Prop :=
  ∀ s s' t t' : State, SameToPrograms s s' → step s = .next t → step s' = .next t' →
    SameToPrograms t t' ∨ ∃ reason, t.run = .faulted reason ∧ t'.run = .faulted reason

/-! ### The invariant -/

/-- Every step keeps the invariant, from every state that has it: both storages stay in canonical form, a waiting core
is a running core at a SCAN with operand A in range, and a Halted core keeps an out-of-range `pc`. The canonical form
and the representation of the wait are the model's own (log entries 2, 6 and 12). -/
def Obligations.InvariantKeptByStep : Prop :=
  ∀ s t : State, s.Inv → step s = .next t → t.Inv

/-- The invariant holds of the state after reset and of every constructed core. Its clauses of storage and of the wait
are the model's own (log entries 2, 6 and 12), and so is the state after reset where it stands for a program, a memory
image and an input that the host gives (log entries 1 to 3); 10_state.md section 7 gives the other reset values. -/
def Obligations.InvariantAtConstruction : Prop :=
  State.reset.Inv ∧ ∀ p : Params, (State.construct p).Inv

/-- The host's tokens, appended between steps (60_exceptions.md section 4), keep the invariant. Its clauses of storage
and of the wait are the model's own, log entries 2, 6 and 12. -/
def Obligations.InvariantKeptByInput : Prop :=
  ∀ (s : State) (tokens : List Token), s.Inv → (s.supplyInput tokens).Inv
end

