-- ==== Sys2Proof/Laws/State.lean ====
section
/-! SUPPORT. What each update of the state does to each field: one lemma per field per update, so that no later proof
unfolds a record update. -/

namespace Sys2Proof.Machine

variable (s : State)

@[simp] theorem writeReg_regs (i : Fin 16) (v : Word) : (writeReg s i v).regs = s.regs.set i v := rfl
@[simp] theorem writeReg_pc (i : Fin 16) (v : Word) : (writeReg s i v).pc = s.pc := rfl
@[simp] theorem writeReg_mode (i : Fin 16) (v : Word) : (writeReg s i v).mode = s.mode := rfl
@[simp] theorem writeReg_run (i : Fin 16) (v : Word) : (writeReg s i v).run = s.run := rfl
@[simp] theorem writeReg_scanWait (i : Fin 16) (v : Word) : (writeReg s i v).scanWait = s.scanWait := rfl
@[simp] theorem writeReg_rom (i : Fin 16) (v : Word) : (writeReg s i v).rom = s.rom := rfl
@[simp] theorem writeReg_mem (i : Fin 16) (v : Word) : (writeReg s i v).mem = s.mem := rfl
@[simp] theorem writeReg_input (i : Fin 16) (v : Word) : (writeReg s i v).input = s.input := rfl
@[simp] theorem writeReg_output (i : Fin 16) (v : Word) : (writeReg s i v).output = s.output := rfl
@[simp] theorem writeReg_trace (i : Fin 16) (v : Word) : (writeReg s i v).trace = s.trace := rfl

@[simp] theorem memWrite_regs (a : Byte) (v : Word) : (memWrite s a v).regs = s.regs := rfl
@[simp] theorem memWrite_pc (a : Byte) (v : Word) : (memWrite s a v).pc = s.pc := rfl
@[simp] theorem memWrite_mode (a : Byte) (v : Word) : (memWrite s a v).mode = s.mode := rfl
@[simp] theorem memWrite_run (a : Byte) (v : Word) : (memWrite s a v).run = s.run := rfl
@[simp] theorem memWrite_scanWait (a : Byte) (v : Word) : (memWrite s a v).scanWait = s.scanWait := rfl
@[simp] theorem memWrite_rom (a : Byte) (v : Word) : (memWrite s a v).rom = s.rom := rfl
@[simp] theorem memWrite_mem (a : Byte) (v : Word) : (memWrite s a v).mem = writeCell s.mem a.toNat (trunc8 v) := rfl
@[simp] theorem memWrite_input (a : Byte) (v : Word) : (memWrite s a v).input = s.input := rfl
@[simp] theorem memWrite_output (a : Byte) (v : Word) : (memWrite s a v).output = s.output := rfl
@[simp] theorem memWrite_trace (a : Byte) (v : Word) : (memWrite s a v).trace = s.trace := rfl

@[simp] theorem record_regs (e : Event) : (record s e).regs = s.regs := rfl
@[simp] theorem record_pc (e : Event) : (record s e).pc = s.pc := rfl
@[simp] theorem record_mode (e : Event) : (record s e).mode = s.mode := rfl
@[simp] theorem record_run (e : Event) : (record s e).run = s.run := rfl
@[simp] theorem record_scanWait (e : Event) : (record s e).scanWait = s.scanWait := rfl
@[simp] theorem record_rom (e : Event) : (record s e).rom = s.rom := rfl
@[simp] theorem record_mem (e : Event) : (record s e).mem = s.mem := rfl
@[simp] theorem record_input (e : Event) : (record s e).input = s.input := rfl
@[simp] theorem record_output (e : Event) : (record s e).output = s.output := rfl
@[simp] theorem record_trace (e : Event) : (record s e).trace = s.trace ++ [e] := rfl

@[simp] theorem emitOutput_regs (v : Word) : (emitOutput s v).regs = s.regs := rfl
@[simp] theorem emitOutput_pc (v : Word) : (emitOutput s v).pc = s.pc := rfl
@[simp] theorem emitOutput_mode (v : Word) : (emitOutput s v).mode = s.mode := rfl
@[simp] theorem emitOutput_run (v : Word) : (emitOutput s v).run = s.run := rfl
@[simp] theorem emitOutput_scanWait (v : Word) : (emitOutput s v).scanWait = s.scanWait := rfl
@[simp] theorem emitOutput_rom (v : Word) : (emitOutput s v).rom = s.rom := rfl
@[simp] theorem emitOutput_mem (v : Word) : (emitOutput s v).mem = s.mem := rfl
@[simp] theorem emitOutput_input (v : Word) : (emitOutput s v).input = s.input := rfl
@[simp] theorem emitOutput_output (v : Word) : (emitOutput s v).output = s.output ++ [v] := rfl
@[simp] theorem emitOutput_trace (v : Word) : (emitOutput s v).trace = s.trace := rfl

@[simp] theorem takeToken_regs (rest : List Token) : (takeToken s rest).regs = s.regs := rfl
@[simp] theorem takeToken_pc (rest : List Token) : (takeToken s rest).pc = s.pc := rfl
@[simp] theorem takeToken_mode (rest : List Token) : (takeToken s rest).mode = s.mode := rfl
@[simp] theorem takeToken_run (rest : List Token) : (takeToken s rest).run = s.run := rfl
@[simp] theorem takeToken_scanWait (rest : List Token) : (takeToken s rest).scanWait = false := rfl
@[simp] theorem takeToken_rom (rest : List Token) : (takeToken s rest).rom = s.rom := rfl
@[simp] theorem takeToken_mem (rest : List Token) : (takeToken s rest).mem = s.mem := rfl
@[simp] theorem takeToken_input (rest : List Token) : (takeToken s rest).input = rest := rfl
@[simp] theorem takeToken_output (rest : List Token) : (takeToken s rest).output = s.output := rfl
@[simp] theorem takeToken_trace (rest : List Token) : (takeToken s rest).trace = s.trace := rfl

@[simp] theorem awaitToken_regs : (awaitToken s).regs = s.regs := rfl
@[simp] theorem awaitToken_pc : (awaitToken s).pc = s.pc := rfl
@[simp] theorem awaitToken_mode : (awaitToken s).mode = s.mode := rfl
@[simp] theorem awaitToken_run : (awaitToken s).run = s.run := rfl
@[simp] theorem awaitToken_scanWait : (awaitToken s).scanWait = true := rfl
@[simp] theorem awaitToken_rom : (awaitToken s).rom = s.rom := rfl
@[simp] theorem awaitToken_mem : (awaitToken s).mem = s.mem := rfl
@[simp] theorem awaitToken_input : (awaitToken s).input = s.input := rfl
@[simp] theorem awaitToken_output : (awaitToken s).output = s.output := rfl
@[simp] theorem awaitToken_trace : (awaitToken s).trace = s.trace := rfl

@[simp] theorem enterHalted_regs : (enterHalted s).regs = s.regs := rfl
@[simp] theorem enterHalted_pc : (enterHalted s).pc = s.pc := rfl
@[simp] theorem enterHalted_mode : (enterHalted s).mode = s.mode := rfl
@[simp] theorem enterHalted_run : (enterHalted s).run = .halted := rfl
@[simp] theorem enterHalted_scanWait : (enterHalted s).scanWait = s.scanWait := rfl
@[simp] theorem enterHalted_rom : (enterHalted s).rom = s.rom := rfl
@[simp] theorem enterHalted_mem : (enterHalted s).mem = s.mem := rfl
@[simp] theorem enterHalted_input : (enterHalted s).input = s.input := rfl
@[simp] theorem enterHalted_output : (enterHalted s).output = s.output := rfl
@[simp] theorem enterHalted_trace : (enterHalted s).trace = s.trace ++ [.addressOutOfRange s.mode s.pc] := rfl

@[simp] theorem enterFaulted_pc (r : Fault) : (enterFaulted s r).pc = s.pc := rfl
@[simp] theorem enterFaulted_mode (r : Fault) : (enterFaulted s r).mode = s.mode := rfl
@[simp] theorem enterFaulted_run (r : Fault) : (enterFaulted s r).run = .faulted r := rfl
@[simp] theorem enterFaulted_scanWait (r : Fault) : (enterFaulted s r).scanWait = s.scanWait := rfl
@[simp] theorem enterFaulted_rom (r : Fault) : (enterFaulted s r).rom = s.rom := rfl
@[simp] theorem enterFaulted_input (r : Fault) : (enterFaulted s r).input = s.input := rfl
@[simp] theorem enterFaulted_trace (r : Fault) : (enterFaulted s r).trace = s.trace := rfl

@[simp] theorem supplyInput_regs (tokens : List Token) : (s.supplyInput tokens).regs = s.regs := rfl
@[simp] theorem supplyInput_pc (tokens : List Token) : (s.supplyInput tokens).pc = s.pc := rfl
@[simp] theorem supplyInput_mode (tokens : List Token) : (s.supplyInput tokens).mode = s.mode := rfl
@[simp] theorem supplyInput_run (tokens : List Token) : (s.supplyInput tokens).run = s.run := rfl
@[simp] theorem supplyInput_scanWait (tokens : List Token) : (s.supplyInput tokens).scanWait = s.scanWait := rfl
@[simp] theorem supplyInput_rom (tokens : List Token) : (s.supplyInput tokens).rom = s.rom := rfl
@[simp] theorem supplyInput_mem (tokens : List Token) : (s.supplyInput tokens).mem = s.mem := rfl
@[simp] theorem supplyInput_input (tokens : List Token) : (s.supplyInput tokens).input = s.input ++ tokens := rfl
@[simp] theorem supplyInput_output (tokens : List Token) : (s.supplyInput tokens).output = s.output := rfl
@[simp] theorem supplyInput_trace (tokens : List Token) : (s.supplyInput tokens).trace = s.trace := rfl

/-! A state before the waiting SCAN's fetch event and the state after it differ in the trace alone. -/

@[simp] theorem recordFetch_regs (w : Container) : (recordFetch s w).regs = s.regs := by unfold recordFetch; split <;> rfl
@[simp] theorem recordFetch_pc (w : Container) : (recordFetch s w).pc = s.pc := by unfold recordFetch; split <;> rfl
@[simp] theorem recordFetch_mode (w : Container) : (recordFetch s w).mode = s.mode := by unfold recordFetch; split <;> rfl
@[simp] theorem recordFetch_run (w : Container) : (recordFetch s w).run = s.run := by unfold recordFetch; split <;> rfl
@[simp] theorem recordFetch_scanWait (w : Container) : (recordFetch s w).scanWait = s.scanWait := by unfold recordFetch; split <;> rfl
@[simp] theorem recordFetch_rom (w : Container) : (recordFetch s w).rom = s.rom := by unfold recordFetch; split <;> rfl
@[simp] theorem recordFetch_mem (w : Container) : (recordFetch s w).mem = s.mem := by unfold recordFetch; split <;> rfl
@[simp] theorem recordFetch_input (w : Container) : (recordFetch s w).input = s.input := by unfold recordFetch; split <;> rfl
@[simp] theorem recordFetch_output (w : Container) : (recordFetch s w).output = s.output := by unfold recordFetch; split <;> rfl
@[simp] theorem recordFetch_trace (w : Container) :
    (recordFetch s w).trace = if s.scanWait then s.trace else s.trace ++ [.fetch s.mode s.pc w] := by
  unfold recordFetch; split <;> rfl

/-! The two warnings touch the trace alone. -/

@[simp] theorem warnSelector_regs (ie : Bool) (rb : Byte) : (warnSelector s ie rb).regs = s.regs := by unfold warnSelector; split <;> rfl
@[simp] theorem warnScan_regs (n : Int) : (warnScan s n).regs = s.regs := by unfold warnScan; split <;> rfl
@[simp] theorem warnSelector_pc (ie : Bool) (rb : Byte) : (warnSelector s ie rb).pc = s.pc := by unfold warnSelector; split <;> rfl
@[simp] theorem warnScan_pc (n : Int) : (warnScan s n).pc = s.pc := by unfold warnScan; split <;> rfl
@[simp] theorem warnSelector_mode (ie : Bool) (rb : Byte) : (warnSelector s ie rb).mode = s.mode := by unfold warnSelector; split <;> rfl
@[simp] theorem warnScan_mode (n : Int) : (warnScan s n).mode = s.mode := by unfold warnScan; split <;> rfl
@[simp] theorem warnSelector_run (ie : Bool) (rb : Byte) : (warnSelector s ie rb).run = s.run := by unfold warnSelector; split <;> rfl
@[simp] theorem warnScan_run (n : Int) : (warnScan s n).run = s.run := by unfold warnScan; split <;> rfl
@[simp] theorem warnSelector_scanWait (ie : Bool) (rb : Byte) : (warnSelector s ie rb).scanWait = s.scanWait := by unfold warnSelector; split <;> rfl
@[simp] theorem warnScan_scanWait (n : Int) : (warnScan s n).scanWait = s.scanWait := by unfold warnScan; split <;> rfl
@[simp] theorem warnSelector_rom (ie : Bool) (rb : Byte) : (warnSelector s ie rb).rom = s.rom := by unfold warnSelector; split <;> rfl
@[simp] theorem warnScan_rom (n : Int) : (warnScan s n).rom = s.rom := by unfold warnScan; split <;> rfl
@[simp] theorem warnSelector_mem (ie : Bool) (rb : Byte) : (warnSelector s ie rb).mem = s.mem := by unfold warnSelector; split <;> rfl
@[simp] theorem warnScan_mem (n : Int) : (warnScan s n).mem = s.mem := by unfold warnScan; split <;> rfl
@[simp] theorem warnSelector_input (ie : Bool) (rb : Byte) : (warnSelector s ie rb).input = s.input := by unfold warnSelector; split <;> rfl
@[simp] theorem warnScan_input (n : Int) : (warnScan s n).input = s.input := by unfold warnScan; split <;> rfl
@[simp] theorem warnSelector_output (ie : Bool) (rb : Byte) : (warnSelector s ie rb).output = s.output := by unfold warnSelector; split <;> rfl
@[simp] theorem warnScan_output (n : Int) : (warnScan s n).output = s.output := by unfold warnScan; split <;> rfl

/-! Control flow sets the program counter, the mode and the trace alone. -/

@[simp] theorem controlFlow_regs (f : Fields) (c : Transient) : (controlFlow s f c).regs = s.regs := rfl
@[simp] theorem controlFlow_run (f : Fields) (c : Transient) : (controlFlow s f c).run = s.run := rfl
@[simp] theorem controlFlow_scanWait (f : Fields) (c : Transient) : (controlFlow s f c).scanWait = s.scanWait := rfl
@[simp] theorem controlFlow_rom (f : Fields) (c : Transient) : (controlFlow s f c).rom = s.rom := rfl
@[simp] theorem controlFlow_mem (f : Fields) (c : Transient) : (controlFlow s f c).mem = s.mem := rfl
@[simp] theorem controlFlow_input (f : Fields) (c : Transient) : (controlFlow s f c).input = s.input := rfl
@[simp] theorem controlFlow_output (f : Fields) (c : Transient) : (controlFlow s f c).output = s.output := rfl
@[simp] theorem controlFlow_pc (f : Fields) (c : Transient) :
    (controlFlow s f c).pc = (nextPc s.mode s.pc f.r f.g c.branch c.output).1 := rfl
@[simp] theorem controlFlow_mode (f : Fields) (c : Transient) :
    (controlFlow s f c).mode = (nextPc s.mode s.pc f.r f.g c.branch c.output).2 := rfl
@[simp] theorem controlFlow_trace (f : Fields) (c : Transient) :
    (controlFlow s f c).trace = s.trace ++
      [.branchDecision (nextPc s.mode s.pc f.r f.g c.branch c.output).2
        (nextPc s.mode s.pc f.r f.g c.branch c.output).1] := rfl

/-! Construction (10_state.md R36). -/

@[simp] theorem construct_regs (p : Params) : (State.construct p).regs = Vector.replicate 16 0#32 := rfl
@[simp] theorem construct_pc (p : Params) : (State.construct p).pc = 0#32 := rfl
@[simp] theorem construct_mode (p : Params) : (State.construct p).mode = .rom := rfl
@[simp] theorem construct_run (p : Params) : (State.construct p).run = .running := rfl
@[simp] theorem construct_scanWait (p : Params) : (State.construct p).scanWait = false := rfl
@[simp] theorem construct_rom (p : Params) : (State.construct p).rom = cellsFrom 0 p.program.toList := rfl
@[simp] theorem construct_mem (p : Params) : (State.construct p).mem = cellsFrom 0 p.initMem.toList := rfl
@[simp] theorem construct_input (p : Params) : (State.construct p).input = p.input := rfl
@[simp] theorem construct_output (p : Params) : (State.construct p).output = [] := rfl
@[simp] theorem construct_trace (p : Params) : (State.construct p).trace = [] := rfl

/-- No rule reads CYCLE_DURATION or TRACE_THRESHOLD (00_scope.md R7). -/
@[simp] theorem construct_unread (p : Params) (duration threshold : Nat) :
    State.construct { p with cycleDuration := duration, traceThreshold := threshold } = State.construct p := rfl

end Sys2Proof.Machine
end

