-- ==== Sys2Proof/Laws/Ops.lean ====
section
/-! SUPPORT. For each shared operation, one lemma that says once everything it can do. -/

namespace Sys2Proof.Machine

theorem selectorIndex_of_range (sel : Byte) (h1 : 1 ≤ sel.toNat) (h2 : sel.toNat ≤ 16) :
    ∃ h : sel.toNat - 1 < 16, selectorIndex sel = some ⟨sel.toNat - 1, h⟩ :=
  ⟨by omega, by simp [selectorIndex, h1, h2]⟩

theorem selectorIndex_eq_none (sel : Byte) (h : sel = 0#8 ∨ 16 < sel.toNat) : selectorIndex sel = none := by
  unfold selectorIndex
  rw [dif_neg]
  rintro ⟨h1, h2⟩
  rcases h with rfl | h
  · simp at h1
  · omega

/-- Operand A is 0, a register, or missing, by the selector (41_operands.md R130, R131). -/
theorem operandA_cases (s : State) (ra : Byte) :
    (ra = 0#8 ∧ operandA s ra = some 0#32)
    ∨ (∃ i : Fin 16, ra.toNat = i.val + 1 ∧ operandA s ra = some (readReg s i))
    ∨ (16 < ra.toNat ∧ operandA s ra = none) := by
  by_cases h0 : ra = 0#8
  · exact .inl ⟨h0, by simp [operandA, h0]⟩
  · have hp : 1 ≤ ra.toNat := by
      have : ra.toNat ≠ 0 := fun h => h0 (BitVec.eq_of_toNat_eq (by simpa using h))
      omega
    by_cases h16 : ra.toNat ≤ 16
    · obtain ⟨h, e⟩ := selectorIndex_of_range ra hp h16
      exact .inr (.inl ⟨⟨ra.toNat - 1, h⟩, by simp; omega, by simp [operandA, h0, e]⟩)
    · exact .inr (.inr ⟨by omega, by simp [operandA, h0, selectorIndex_eq_none ra (.inr (by omega))]⟩)

/-- Operand A is resolved, or the step ends in the fault of its selector. -/
theorem resolveA_cases (s : State) (ra : Byte) (k : Word → Phase (Word × Word)) :
    (∃ a, ra.toNat ≤ 16 ∧ operandA s ra = some a ∧ resolveA s ra k = k a)
    ∨ (16 < ra.toNat ∧ resolveA s ra k = .ended (enterFaulted s (.readASelectorOutOfRange ra))) := by
  rcases operandA_cases s ra with ⟨h, e⟩ | ⟨i, h, e⟩ | ⟨h, e⟩
  · exact .inl ⟨0#32, by simp [h], e, by simp [resolveA, e]⟩
  · exact .inl ⟨readReg s i, by omega, e, by simp [resolveA, e]⟩
  · exact .inr ⟨h, by simp [resolveA, e]⟩

/-- Write-Back does nothing, reports a memory write, writes a register, or ends in the fault of its selector
(44_writeback.md R200, R201). -/
theorem writeBack_cases (s : State) (ws : Byte) (c : Transient) :
    (ws = 0#8 ∧ writeBack s ws c = .go s ())
    ∨ (ws ≠ 0#8 ∧ c.memwrite = true
        ∧ writeBack s ws c = .go (record s (.writeBack (.mem (cellAddress ws) (trunc8 c.output)))) ())
    ∨ (∃ i : Fin 16, c.memwrite = false ∧ ws.toNat = i.val + 1
        ∧ writeBack s ws c = .go (record (writeReg s i c.output) (.writeBack (.reg i c.output))) ())
    ∨ (c.memwrite = false ∧ 16 < ws.toNat
        ∧ writeBack s ws c = .ended (enterFaulted s (.writeSelectorOutOfRange ws))) := by
  by_cases h0 : ws = 0#8
  · exact .inl ⟨h0, by simp [writeBack, h0]⟩
  by_cases hm : c.memwrite = true
  · exact .inr (.inl ⟨h0, hm, by simp [writeBack, h0, hm]⟩)
  have hm' : c.memwrite = false := by simpa using hm
  have hp : 1 ≤ ws.toNat := by
    have : ws.toNat ≠ 0 := fun h => h0 (BitVec.eq_of_toNat_eq (by simpa using h))
    omega
  by_cases h16 : ws.toNat ≤ 16
  · obtain ⟨h, e⟩ := selectorIndex_of_range ws hp h16
    exact .inr (.inr (.inl ⟨⟨ws.toNat - 1, h⟩, hm', by simp; omega, by simp [writeBack, h0, hm', e]⟩))
  · exact .inr (.inr (.inr ⟨hm', by omega,
      by simp [writeBack, h0, hm', selectorIndex_eq_none ws (.inr (by omega))]⟩))

/-- A step that got its operands dispatches and finishes; one that did not has ended in Operand Resolve. -/
theorem runCycle_cases {op : BitVec 5} {f : Fields} {p : Phase (Word × Word)}
    {d : State → Transient → State × Transient} {t : State} (h : runCycle op f p d = .next t) :
    p = .ended t
    ∨ ∃ u a b, p = .go u (a, b)
        ∧ t = finishCycle op f (d u (dispatchStart a b)).1 (d u (dispatchStart a b)).2 := by
  cases p with
  | ended u => exact .inl (by simpa [runCycle] using h)
  | go u x => exact .inr ⟨u, x.1, x.2, rfl, by simpa [runCycle] using h.symm⟩

/-- A finished step went through control flow, or ended in Write-Back. -/
theorem finishCycle_cases (op : BitVec 5) (f : Fields) (s : State) (c : Transient) :
    (∃ u, writeBack (record s (.dispatch op c.output c.branch)) f.ws c = .go u ()
        ∧ finishCycle op f s c = controlFlow u f c)
    ∨ (∃ u, writeBack (record s (.dispatch op c.output c.branch)) f.ws c = .ended u
        ∧ finishCycle op f s c = u) := by
  unfold finishCycle
  cases writeBack (record s (.dispatch op c.output c.branch)) f.ws c with
  | go u x => exact .inl ⟨u, rfl, rfl⟩
  | ended u => exact .inr ⟨u, rfl, rfl⟩

/-- One step request does nothing, halts, or executes the decoded word (60_exceptions.md R259, 40_cycle.md R113). -/
theorem step_cases (s : State) :
    (s.run ≠ .running ∧ step s = .next s)
    ∨ (s.run = .running ∧ fetchWord s = none ∧ step s = .next (enterHalted s))
    ∨ (∃ w, s.run = .running ∧ fetchWord s = some w ∧ step s = exec (decode w) (recordFetch s w)) := by
  unfold step
  cases hr : s.run with
  | running =>
    cases hf : fetchWord s with
    | none => exact .inr (.inl ⟨rfl, rfl, rfl⟩)
    | some w => exact .inr (.inr ⟨w, rfl, rfl, rfl⟩)
  | halted => exact .inl ⟨by simp, rfl⟩
  | faulted r => exact .inl ⟨by simp, rfl⟩

/-- A run of one step more. -/
theorem core_run_succ {s t : State} (k : Nat) (h : step s = .next t) :
    Sys2Proof.core.run (k + 1) s = Sys2Proof.core.run k t := by
  have h' : Sys2Proof.core.step s = .next t := h
  simp only [Host.Core.run, h']

end Sys2Proof.Machine
end

