-- ==== Sys2Proof/Laws/Exec.lean ====
section
/-! SUPPORT. What every instruction's meaning is, once: one cycle whose operands come by the opcode's kind and whose
Dispatch is one of six, all of one shape. A statement over every instruction cites `exec_eq_runCycle` and does not
unfold thirty-two meanings. -/

namespace Sys2Proof.Machine

/-- Operand Resolve of an instruction (41_operands.md R132). -/
def resolveOf (i : Instr) (s : State) : Phase (Word × Word) :=
  if opcodeOf i = 15#5 then resolveScan s (operandsOf i)
  else if opcodeOf i = 17#5 then resolveMem s (operandsOf i)
  else resolveGeneral s (operandsOf i)

/-- All that Dispatch of opcode `op` can do with operands `a` and `b`: `output` is `out a b`, `branch` is `br a b`, the
error events are `errs a b`; RAM_WRITE stores and emits, OUTPUT emits, and nothing else changes. -/
structure DispatchSpec (op : BitVec 5) (f : Fields) (d : State → Transient → State × Transient)
    (out : Word → Word → Word) (br : Word → Word → Byte) (errs : Word → Word → List Event) : Prop where
  eq : ∀ s a b, d s (dispatchStart a b) =
    ({ s with
        mem := if op = 16#5 ∧ f.ws ≠ 0#8 then writeCell s.mem (cellAddress f.ws).toNat (trunc8 (out a b)) else s.mem
        output := s.output ++ (if op = 16#5 ∨ op = 18#5 then [out a b] else [])
        trace := s.trace ++ errs a b },
      { pathA := a, pathB := b, output := out a b, branch := br a b, memwrite := decide (op = 16#5) })
  branch : ∀ a b, br a b = 0#8 ∨ (9 ≤ op.toNat ∧ op.toNat ≤ 14 ∧ br a b = f.jo)
  errors : ∀ a b, errs a b = [] ∨ (errs a b = [.divideByZero] ∧ b = 0#32 ∧ out a b = 256#32)

theorem dispatchDefault_spec (op : BitVec 5) (f : Fields) (h : op ≠ 16#5) (h' : op ≠ 18#5) :
    DispatchSpec op f dispatchDefault (fun a b => a + b) (fun _ _ => 0#8) (fun _ _ => []) :=
  ⟨fun s a b => by simp [dispatchDefault, dispatchStart, h, h'], fun _ _ => .inl rfl, fun _ _ => .inl rfl⟩

theorem dispatchValue_spec (op : BitVec 5) (f : Fields) (value : Word → Word → Word) (h : op ≠ 16#5)
    (h' : op ≠ 18#5) : DispatchSpec op f (dispatchValue value) value (fun _ _ => 0#8) (fun _ _ => []) :=
  ⟨fun s a b => by simp [dispatchValue, dispatchStart, h, h'], fun _ _ => .inl rfl, fun _ _ => .inl rfl⟩

theorem dispatchCompare_spec (op : BitVec 5) (f : Fields) (cond : Word → Word → Bool) (h1 : 9 ≤ op.toNat)
    (h2 : op.toNat ≤ 14) : DispatchSpec op f (dispatchCompare cond f.jo) (fun a b => a + b)
      (fun a b => if cond a b then f.jo else 0#8) (fun _ _ => []) := by
  have h : op ≠ 16#5 := fun h => by simp [h] at h2
  have h' : op ≠ 18#5 := fun h => by simp [h] at h2
  refine ⟨fun s a b => ?_, fun a b => ?_, fun _ _ => .inl rfl⟩
  · by_cases hc : cond a b <;> simp [dispatchCompare, dispatchStart, h, h', hc]
  · by_cases hc : cond a b <;> simp [hc, h1, h2]

theorem dispatchDiv_spec (f : Fields) :
    DispatchSpec 3#5 f dispatchDiv (fun a b => if b = 0#32 then 256#32 else a / b) (fun _ _ => 0#8)
      (fun _ b => if b = 0#32 then [.divideByZero] else []) := by
  refine ⟨fun s a b => ?_, fun _ _ => .inl rfl, fun a b => ?_⟩
  · by_cases hb : b = 0#32
    · rw [dispatchDiv, if_pos (by simpa [dispatchStart] using hb)]
      simp [dispatchStart, hb, divSentinel, record]
    · rw [dispatchDiv, if_neg (by simpa [dispatchStart] using hb)]
      simp [dispatchStart, hb]
  · by_cases hb : b = 0#32 <;> simp [hb]

theorem dispatchOutput_spec (f : Fields) :
    DispatchSpec 18#5 f dispatchOutput (fun a b => a + b) (fun _ _ => 0#8) (fun _ _ => []) :=
  ⟨fun s a b => by simp [dispatchOutput, dispatchStart, emitOutput], fun _ _ => .inl rfl, fun _ _ => .inl rfl⟩

theorem dispatchRamWrite_spec (f : Fields) :
    DispatchSpec 16#5 f (dispatchRamWrite f.ws) (fun a b => a + b) (fun _ _ => 0#8) (fun _ _ => []) :=
  ⟨fun s a b => by by_cases h : f.ws = 0#8 <;> simp [dispatchRamWrite, dispatchStart, emitOutput, h, memWrite],
    fun _ _ => .inl rfl, fun _ _ => .inl rfl⟩

/-- Every meaning is one cycle (40_cycle.md R112). -/
theorem exec_eq_runCycle (i : Instr) : ∃ d out br errs, DispatchSpec (opcodeOf i) (operandsOf i) d out br errs
    ∧ ∀ s, exec i s = runCycle (opcodeOf i) (operandsOf i) (resolveOf i s) d := by
  cases i
  case div f => exact ⟨_, _, _, _, dispatchDiv_spec f, fun s => rfl⟩
  case output f => exact ⟨_, _, _, _, dispatchOutput_spec f, fun s => rfl⟩
  case ramWrite f => exact ⟨_, _, _, _, dispatchRamWrite_spec f, fun s => rfl⟩
  case je f =>
    exact ⟨_, _, _, _, dispatchCompare_spec _ f condEq (by simp [opcodeOf]) (by simp [opcodeOf]), fun s => rfl⟩
  case jle f =>
    exact ⟨_, _, _, _, dispatchCompare_spec _ f condLe (by simp [opcodeOf]) (by simp [opcodeOf]), fun s => rfl⟩
  case jge f =>
    exact ⟨_, _, _, _, dispatchCompare_spec _ f condGe (by simp [opcodeOf]) (by simp [opcodeOf]), fun s => rfl⟩
  case jl f =>
    exact ⟨_, _, _, _, dispatchCompare_spec _ f condLt (by simp [opcodeOf]) (by simp [opcodeOf]), fun s => rfl⟩
  case jg f =>
    exact ⟨_, _, _, _, dispatchCompare_spec _ f condGt (by simp [opcodeOf]) (by simp [opcodeOf]), fun s => rfl⟩
  case jne f =>
    exact ⟨_, _, _, _, dispatchCompare_spec _ f condNe (by simp [opcodeOf]) (by simp [opcodeOf]), fun s => rfl⟩
  case sub f => exact ⟨_, _, _, _, dispatchValue_spec _ f _ (by simp [opcodeOf]) (by simp [opcodeOf]), fun s => rfl⟩
  case mul f => exact ⟨_, _, _, _, dispatchValue_spec _ f _ (by simp [opcodeOf]) (by simp [opcodeOf]), fun s => rfl⟩
  case or f => exact ⟨_, _, _, _, dispatchValue_spec _ f _ (by simp [opcodeOf]) (by simp [opcodeOf]), fun s => rfl⟩
  case and f => exact ⟨_, _, _, _, dispatchValue_spec _ f _ (by simp [opcodeOf]) (by simp [opcodeOf]), fun s => rfl⟩
  case xor f => exact ⟨_, _, _, _, dispatchValue_spec _ f _ (by simp [opcodeOf]) (by simp [opcodeOf]), fun s => rfl⟩
  case shiftR f => exact ⟨_, _, _, _, dispatchValue_spec _ f _ (by simp [opcodeOf]) (by simp [opcodeOf]), fun s => rfl⟩
  case shiftL f => exact ⟨_, _, _, _, dispatchValue_spec _ f _ (by simp [opcodeOf]) (by simp [opcodeOf]), fun s => rfl⟩
  all_goals exact ⟨_, _, _, _, dispatchDefault_spec _ _ (by simp [opcodeOf]) (by simp [opcodeOf]), fun s => rfl⟩

end Sys2Proof.Machine
end

