-- ==== Sys2Proof/Laws/Memory.lean ====
section
/-! SUPPORT. The laws of sparse storage: a write is read back and leaves every other place alone, and every operation
that builds or changes a memory keeps its canonical form. -/

namespace Sys2Proof.Machine

section Cells

variable {w : Nat}

theorem readCell_insertCell (m : List (Nat × BitVec w)) (a b : Nat) (v : BitVec w) :
    readCell (insertCell m a v) b = if b = a then v else readCell m b := by
  induction m with
  | nil => simp [insertCell, readCell]
  | cons c t ih =>
    obtain ⟨k, x⟩ := c
    unfold insertCell
    split
    · simp only [readCell]
    · split
      · next h => subst h; simp only [readCell]; split <;> rfl
      · next h =>
        simp only [readCell, ih]
        by_cases hb : b = k
        · simp [hb, Ne.symm h]
        · simp [hb]

theorem readCell_filter (m : List (Nat × BitVec w)) (a b : Nat) :
    readCell (m.filter (fun c => c.1 != a)) b = if b = a then 0#w else readCell m b := by
  induction m with
  | nil => simp [readCell]
  | cons c t ih =>
    obtain ⟨k, x⟩ := c
    by_cases hk : k = a
    · subst hk
      by_cases hb : b = k <;> simp_all [readCell]
    · by_cases hb : b = k
      · subst hb; simp [readCell, hk]
      · simp_all [readCell]

/-- A write is read back at its own key and changes no other. -/
theorem readCell_writeCell (m : List (Nat × BitVec w)) (a b : Nat) (v : BitVec w) :
    readCell (writeCell m a v) b = if b = a then v else readCell m b := by
  unfold writeCell
  split
  · next h => subst h; exact readCell_filter m a b
  · exact readCell_insertCell m a b v

theorem cellsWfFrom_mono (n lo lo' : Nat) (m : List (Nat × BitVec w)) (h : lo' ≤ lo) :
    cellsWfFrom n lo m = true → cellsWfFrom n lo' m = true := by
  cases m with
  | nil => simp [cellsWfFrom]
  | cons c t =>
    obtain ⟨k, x⟩ := c
    simp only [cellsWfFrom, Bool.and_eq_true, decide_eq_true_eq]
    rintro ⟨⟨⟨h1, h2⟩, h3⟩, h4⟩
    exact ⟨⟨⟨by omega, h2⟩, h3⟩, h4⟩

theorem cellsWfFrom_insertCell (n lo a : Nat) (v : BitVec w) (m : List (Nat × BitVec w))
    (hlo : lo ≤ a) (hn : a < n) (hv : v ≠ 0#w) :
    cellsWfFrom n lo m = true → cellsWfFrom n lo (insertCell m a v) = true := by
  induction m generalizing lo with
  | nil => intro _; simpa [insertCell, cellsWfFrom, hlo, hn] using hv
  | cons c t ih =>
    obtain ⟨k, x⟩ := c
    intro h
    have h' := h
    simp only [cellsWfFrom, Bool.and_eq_true, decide_eq_true_eq] at h'
    obtain ⟨⟨⟨h1, h2⟩, h3⟩, h4⟩ := h'
    unfold insertCell
    split
    · next hak =>
      simp only [cellsWfFrom, Bool.and_eq_true, decide_eq_true_eq]
      exact ⟨⟨⟨hlo, hn⟩, hv⟩, ⟨⟨hak, h2⟩, h3⟩, h4⟩
    · split
      · next hak =>
        subst hak
        simp only [cellsWfFrom, Bool.and_eq_true, decide_eq_true_eq]
        exact ⟨⟨⟨hlo, hn⟩, hv⟩, h4⟩
      · simp only [cellsWfFrom, Bool.and_eq_true, decide_eq_true_eq]
        exact ⟨⟨⟨h1, h2⟩, h3⟩, ih (k + 1) (by omega) h4⟩

theorem cellsWfFrom_filter (n lo a : Nat) (m : List (Nat × BitVec w)) :
    cellsWfFrom n lo m = true → cellsWfFrom n lo (m.filter (fun c => c.1 != a)) = true := by
  induction m generalizing lo with
  | nil => simp
  | cons c t ih =>
    obtain ⟨k, x⟩ := c
    intro h
    simp only [cellsWfFrom, Bool.and_eq_true, decide_eq_true_eq] at h
    obtain ⟨⟨⟨h1, h2⟩, h3⟩, h4⟩ := h
    by_cases hk : k = a
    · simpa [hk] using ih lo (cellsWfFrom_mono n (k + 1) lo t (by omega) h4)
    · simpa [hk, cellsWfFrom, h1, h2] using ⟨h3, ih (k + 1) h4⟩

/-- Writing keeps the canonical form. -/
theorem cellsWfFrom_writeCell (n lo a : Nat) (v : BitVec w) (m : List (Nat × BitVec w))
    (hlo : lo ≤ a) (hn : a < n) (h : cellsWfFrom n lo m = true) :
    cellsWfFrom n lo (writeCell m a v) = true := by
  unfold writeCell
  split
  · exact cellsWfFrom_filter n lo a m h
  · next hv => exact cellsWfFrom_insertCell n lo a v m hlo hn hv h

/-- A list of values placed from `k` on is in canonical form. -/
theorem cellsWfFrom_cellsFrom (n k : Nat) (l : List (BitVec w)) (h : k + l.length ≤ n) :
    cellsWfFrom n k (cellsFrom k l) = true := by
  induction l generalizing k with
  | nil => simp [cellsFrom, cellsWfFrom]
  | cons v vs ih =>
    simp only [List.length_cons] at h
    have ih' := ih (k + 1) (by omega)
    unfold cellsFrom
    split
    · exact cellsWfFrom_mono n (k + 1) k _ (by omega) ih'
    · next hv =>
      simp only [cellsWfFrom, Bool.and_eq_true, decide_eq_true_eq]
      exact ⟨⟨⟨le_refl k, by omega⟩, hv⟩, ih'⟩

theorem readCell_cellsFrom_lt (k a : Nat) (l : List (BitVec w)) (h : a < k) : readCell (cellsFrom k l) a = 0#w := by
  induction l generalizing k with
  | nil => simp [cellsFrom, readCell]
  | cons v vs ih =>
    unfold cellsFrom
    split
    · exact ih (k + 1) (by omega)
    · simp [readCell, Nat.ne_of_lt h, ih (k + 1) (by omega)]

/-- A list of values placed from `k` on reads as the list. -/
theorem readCell_cellsFrom (k a : Nat) (l : List (BitVec w)) :
    readCell (cellsFrom k l) (k + a) = l.getD a 0#w := by
  induction l generalizing k a with
  | nil => simp [cellsFrom, readCell]
  | cons v vs ih =>
    cases a with
    | zero =>
      unfold cellsFrom
      split
      · next h => subst h; simpa using readCell_cellsFrom_lt (k + 1) k vs (by omega)
      · simp [readCell]
    | succ a =>
      have e : k + (a + 1) = k + 1 + a := by omega
      unfold cellsFrom
      split
      · simpa [e] using ih (k + 1) a
      · simpa [readCell, e, show ¬ (k + 1 + a = k) by omega] using ih (k + 1) a

theorem cellsFrom_zeros (k n : Nat) : cellsFrom k (List.replicate n 0#w) = [] := by
  induction n generalizing k with
  | zero => rfl
  | succ n ih => simpa [List.replicate_succ, cellsFrom] using ih (k + 1)

end Cells

/-! ### The memory operations of the machine keep the canonical form -/

theorem reset_mem_wf : State.reset.mem.wf = true := rfl

theorem reset_rom_wf : State.reset.rom.wf = true := rfl

theorem memWrite_wf (s : State) (a : Byte) (v : Word) (h : s.mem.wf = true) : (memWrite s a v).mem.wf = true :=
  cellsWfFrom_writeCell 256 0 a.toNat (trunc8 v) s.mem (by omega) a.isLt h

theorem enterFaulted_wf (s : State) (r : Fault) : (enterFaulted s r).mem.wf = true :=
  cellsWfFrom_cellsFrom 256 0 _ (by simp)

theorem construct_mem_wf (p : Params) : (State.construct p).mem.wf = true :=
  cellsWfFrom_cellsFrom 256 0 _ (by simp)

theorem construct_rom_wf (p : Params) : (State.construct p).rom.wf = true :=
  cellsWfFrom_cellsFrom 256 0 _ (by simp)

theorem placeBytes_wf (m : Memory) (a : Nat) (w : Container) (ha : a + 8 ≤ 256) (h : m.wf = true) :
    (placeBytes m a w).wf = true := by
  have key : ∀ (l : List Nat) (m : Memory), (∀ j ∈ l, j < 8) → m.wf = true →
      Memory.wf (l.foldl (fun m j => writeCell m (a + j) (w.extractLsb' (8 * j) 8)) m) = true := by
    intro l
    induction l with
    | nil => intro m _ hm; simpa using hm
    | cons j t ih =>
      intro m hl hm
      have hj := hl j (by simp)
      exact ih _ (fun i hi => hl i (by simp [hi]))
        (cellsWfFrom_writeCell 256 0 (a + j) _ m (by omega) (by omega) hm)
  exact key (List.range 8) m (fun j hj => by simpa using hj) h

theorem placeIndex_le (s : State) : (placeIndex s).toNat ≤ lastIndex s.mode := by
  unfold placeIndex
  split
  · assumption
  · simp

theorem placeWord_wf (s : State) (w : Container) (hm : s.mem.wf = true) (hr : s.rom.wf = true) :
    (placeWord s w).mem.wf = true ∧ (placeWord s w).rom.wf = true := by
  have hi := placeIndex_le s
  unfold placeWord
  cases hmode : s.mode
  · rw [hmode] at hi
    exact ⟨hm, cellsWfFrom_writeCell 256 0 _ w s.rom (by omega) (by simp [lastIndex] at hi; omega) hr⟩
  · rw [hmode] at hi
    exact ⟨placeBytes_wf s.mem _ w (by simp [lastIndex] at hi; omega) hm, hr⟩

/-- The eight bytes `placeBytes` stores, and every other left alone (20_memory.md R58). -/
theorem readCell_placeBytes (m : Memory) (a b : Nat) (w : Container) :
    readCell (placeBytes m a w) b = if a ≤ b ∧ b < a + 8 then w.extractLsb' (8 * (b - a)) 8 else readCell m b := by
  unfold placeBytes
  rw [show List.range 8 = [0, 1, 2, 3, 4, 5, 6, 7] from rfl]
  simp only [List.foldl_cons, List.foldl_nil, readCell_writeCell]
  by_cases h : a ≤ b ∧ b < a + 8
  · obtain ⟨k, rfl⟩ : ∃ k, b = a + k := ⟨b - a, by omega⟩
    have hk : k < 8 := by omega
    rw [if_pos h]
    interval_cases k <;> simp
  · rw [if_neg h]
    repeat rw [if_neg (by omega)]

theorem append8_toNat (b0 b1 b2 b3 b4 b5 b6 b7 : Byte) :
    (b7 ++ b6 ++ b5 ++ b4 ++ b3 ++ b2 ++ b1 ++ b0 : Container).toNat =
      b0.toNat + b1.toNat * 2 ^ 8 + b2.toNat * 2 ^ 16 + b3.toNat * 2 ^ 24 + b4.toNat * 2 ^ 32 + b5.toNat * 2 ^ 40
        + b6.toNat * 2 ^ 48 + b7.toNat * 2 ^ 56 := by
  have key : ∀ a b : Nat, b < 2 ^ 8 → a <<< 8 ||| b = a * 2 ^ 8 + b := fun a b h => by
    rw [Nat.shiftLeft_eq, Nat.mul_comm, Nat.two_pow_add_eq_or_of_lt h]
  simp only [BitVec.toNat_append, key _ _ b0.isLt, key _ _ b1.isLt, key _ _ b2.isLt, key _ _ b3.isLt, key _ _ b4.isLt,
    key _ _ b5.isLt, key _ _ b6.isLt]
  omega

/-- A RAM fetch is a little-endian number of eight bytes (20_memory.md R58). -/
theorem fetchRam_toNat (s : State) (a : Byte) :
    (fetchRam s a).toNat =
      (memRead s a).toNat + (memRead s (a + 1#8)).toNat * 2 ^ 8 + (memRead s (a + 2#8)).toNat * 2 ^ 16
        + (memRead s (a + 3#8)).toNat * 2 ^ 24 + (memRead s (a + 4#8)).toNat * 2 ^ 32
        + (memRead s (a + 5#8)).toNat * 2 ^ 40 + (memRead s (a + 6#8)).toNat * 2 ^ 48
        + (memRead s (a + 7#8)).toNat * 2 ^ 56 :=
  append8_toNat _ _ _ _ _ _ _ _

/-- Byte `j` of a fetched word is the memory byte `j` places up (20_memory.md R58). -/
theorem fetchRam_extract (s : State) (a : Byte) (j : Nat) (hj : j < 8) :
    (fetchRam s a).extractLsb' (8 * j) 8 = memRead s (a + BitVec.ofNat 8 j) := by
  apply BitVec.eq_of_toNat_eq
  rw [BitVec.extractLsb'_toNat, fetchRam_toNat, Nat.shiftRight_eq_div_pow]
  have h0 := (memRead s a).isLt
  have h1 := (memRead s (a + 1#8)).isLt
  have h2 := (memRead s (a + 2#8)).isLt
  have h3 := (memRead s (a + 3#8)).isLt
  have h4 := (memRead s (a + 4#8)).isLt
  have h5 := (memRead s (a + 5#8)).isLt
  have h6 := (memRead s (a + 6#8)).isLt
  have h7 := (memRead s (a + 7#8)).isLt
  interval_cases j <;> norm_num <;> omega

/-- The data port reads back what it wrote and leaves every other byte alone (20_memory.md R50, R53). -/
theorem memRead_memWrite (s : State) (a b : Byte) (v : Word) :
    memRead (memWrite s a v) b = if b = a then trunc8 v else memRead s b := by
  simp only [memRead, memWrite, readCell_writeCell, BitVec.toNat_inj]

/-- A constructed core's memory is INIT_MEM (10_state.md R36). -/
theorem memRead_construct (p : Params) (a : Byte) : memRead (State.construct p) a = p.initMem.toList.getD a.toNat 0#8 := by
  have h := readCell_cellsFrom 0 a.toNat p.initMem.toList
  simpa [memRead, State.construct] using h

/-- The state after reset is one constructed core: no program, the reference memory, no token. -/
theorem reset_eq_construct (duration threshold : Nat) :
    State.construct ⟨Vector.replicate 256 0#64, Vector.replicate 256 0#8, [], duration, threshold⟩ = State.reset := by
  simp only [State.construct, Vector.toList_replicate, cellsFrom_zeros]
  rfl

end Sys2Proof.Machine
end

