-- ==== Sys2Proof/Laws/PerInstr.lean ====
section
/-! SUPPORT. One family of lemmas, one per instruction: every instruction is what the opcode map gives for its opcode
and its fields (30_encoding.md R89). -/

namespace Sys2Proof.Laws.OpcodeMap

/-- The opcode map leads back from the opcode and the fields of an instruction to the instruction. -/
def Statement (i : Instr) : Prop := instrOf (opcodeOf i) (operandsOf i) = i

theorem add (f : Fields) : Statement (.add f) := rfl
theorem sub (f : Fields) : Statement (.sub f) := rfl
theorem mul (f : Fields) : Statement (.mul f) := rfl
theorem div (f : Fields) : Statement (.div f) := rfl
theorem or (f : Fields) : Statement (.or f) := rfl
theorem and (f : Fields) : Statement (.and f) := rfl
theorem xor (f : Fields) : Statement (.xor f) := rfl
theorem shiftR (f : Fields) : Statement (.shiftR f) := rfl
theorem shiftL (f : Fields) : Statement (.shiftL f) := rfl
theorem je (f : Fields) : Statement (.je f) := rfl
theorem jle (f : Fields) : Statement (.jle f) := rfl
theorem jge (f : Fields) : Statement (.jge f) := rfl
theorem jl (f : Fields) : Statement (.jl f) := rfl
theorem jg (f : Fields) : Statement (.jg f) := rfl
theorem jne (f : Fields) : Statement (.jne f) := rfl
theorem scan (f : Fields) : Statement (.scan f) := rfl
theorem ramWrite (f : Fields) : Statement (.ramWrite f) := rfl
theorem ramRead (f : Fields) : Statement (.ramRead f) := rfl
theorem output (f : Fields) : Statement (.output f) := rfl
theorem op19 (f : Fields) : Statement (.op19 f) := rfl
theorem op20 (f : Fields) : Statement (.op20 f) := rfl
theorem op21 (f : Fields) : Statement (.op21 f) := rfl
theorem op22 (f : Fields) : Statement (.op22 f) := rfl
theorem op23 (f : Fields) : Statement (.op23 f) := rfl
theorem op24 (f : Fields) : Statement (.op24 f) := rfl
theorem op25 (f : Fields) : Statement (.op25 f) := rfl
theorem op26 (f : Fields) : Statement (.op26 f) := rfl
theorem op27 (f : Fields) : Statement (.op27 f) := rfl
theorem op28 (f : Fields) : Statement (.op28 f) := rfl
theorem op29 (f : Fields) : Statement (.op29 f) := rfl
theorem op30 (f : Fields) : Statement (.op30 f) := rfl
theorem op31 (f : Fields) : Statement (.op31 f) := rfl

end Sys2Proof.Laws.OpcodeMap
end

