-- ==== Sys2Proof/Tests/Slice0.lean ====
section
/-! SUPPORT. The model's own tests. The words and the expected values are those of 95_test_vectors.md (the vector is named
at each test) or, where it lists none, are written out from the field layout of 30_encoding.md R81. The `witness_`
theorems show, for each statement that has hypotheses, concrete values that meet them. -/

namespace Sys2Proof.Tests

open Sys2Proof.Machine Sys2Proof.Statements

/-! ### Helpers -/

/-- Registers, 0 where nothing is listed. -/
def regsFrom (l : List (Fin 16 × Word)) : Vector Word 16 := l.foldl (fun r c => r.set c.1 c.2) (Vector.replicate 16 0#32)

/-- A core about to execute `w` in ROM space. -/
def romAt (w : Container) (pc : Nat := 0) (regs : List (Fin 16 × Word) := []) (mem : Memory := [])
    (input : List Token := []) : State :=
  { State.reset with
    pc := BitVec.ofNat 32 pc
    rom := writeCell [] pc w
    regs := regsFrom regs
    mem := mem
    input := input }

/-- A core about to execute `w` in RAM space. -/
def ramAt (w : Container) (pc : Nat) (regs : List (Fin 16 × Word) := []) : State :=
  { State.reset with pc := BitVec.ofNat 32 pc, mode := .ram, mem := placeBytes [] (8 * pc) w, regs := regsFrom regs }

/-- The state after one step request. -/
def after (s : State) : State := match step s with
  | .next t => t
  | _ => s

/-- The state after one instruction. -/
def afterExec (i : Instr) (s : State) : State := match exec i s with
  | .next t => t
  | _ => s

/-- A register, the space and the `pc` after one step request. -/
def seen (s : State) (k : Fin 16) : Word × Mode × Nat := (readReg (after s) k, (after s).mode, (after s).pc.toNat)

/-- Fields that are 0 unless named. -/
def fields (ra : Byte := 0) (ws : Byte := 0) (rb : Byte := 0) (ie : Bool := false) (jo : Byte := 0) (g : Bool := false)
    (r : Bool := false) : Fields := { g := g, r := r, jo := jo, ws := ws, ra := ra, ie := ie, rb := rb }

/-- A core with these tokens on its input. -/
def withInput (l : List Token) : State := { State.reset with input := l }

theorem notFaulted_of_running {t : State} (h : t.run = .running) : t.NotFaulted := by
  intro r h'
  rw [h] at h'
  cases h'

/-! ### Well-formedness: one ill-formed term for each check -/

theorem test_readA_17_refused : (Instr.add (fields (ra := 17))).WellFormed = false := by decide
theorem test_write_17_refused : (Instr.output (fields (ws := 17))).WellFormed = false := by decide
theorem test_selectors_16_accepted : (Instr.je (fields (ra := 16) (ws := 16) (rb := 255))).WellFormed = true := by decide
theorem test_ramWrite_255_accepted : (Instr.ramWrite (fields (ws := 255))).WellFormed = true := by decide

/-! ### Decoding -/

/-- V1, bits 63..40 ignored. -/
theorem test_decode_add : decode 0xFFFFFF00000201AB#64 = .add (fields (ws := 1) (rb := 0xAB) (ie := true)) := by decide
/-- V20. -/
theorem test_decode_sub : decode 0x0000000200060202#64 = .sub (fields (ra := 1) (ws := 3) (rb := 2)) := by decide
/-- V23. -/
theorem test_decode_mul : decode 0x0000000400060201#64 = .mul (fields (ra := 1) (ws := 3) (rb := 1)) := by decide
/-- V26. -/
theorem test_decode_div : decode 0x0000000600060300#64 = .div (fields (ra := 1) (ws := 3) (ie := true)) := by decide
/-- V30. -/
theorem test_decode_or : decode 0x000000080006030A#64 = .or (fields (ra := 1) (ws := 3) (rb := 10) (ie := true)) := by decide
/-- V32. -/
theorem test_decode_and : decode 0x0000000A000603FF#64 = .and (fields (ra := 1) (ws := 3) (rb := 255) (ie := true)) := by decide
/-- V34. -/
theorem test_decode_xor : decode 0x0000000C00060201#64 = .xor (fields (ra := 1) (ws := 3) (rb := 1)) := by decide
/-- V35. -/
theorem test_decode_shiftR : decode 0x0000000E00060304#64 = .shiftR (fields (ra := 1) (ws := 3) (rb := 4) (ie := true)) := by decide
/-- V39. -/
theorem test_decode_shiftL : decode 0x0000001000060200#64 = .shiftL (fields (ra := 1) (ws := 3)) := by decide
/-- V66. -/
theorem test_decode_je : decode 0x0000001208040303#64 = .je (fields (ra := 1) (ws := 2) (rb := 3) (ie := true) (jo := 4)) := by decide
/-- V86. -/
theorem test_decode_jle : decode 0x0000005402000102#64 = .jle (fields (rb := 2) (ie := true) (jo := 1) (r := true)) := by decide
/-- V91. -/
theorem test_decode_jge : decode 0x000000D602000302#64 = .jge (fields (ra := 1) (rb := 2) (ie := true) (jo := 1) (g := true) (r := true)) := by decide
/-- V74. -/
theorem test_decode_jl : decode 0x00000019FE000303#64 = .jl (fields (ra := 1) (rb := 3) (ie := true) (jo := 255)) := by decide
/-- V76. -/
theorem test_decode_jg : decode 0x0000001A08000303#64 = .jg (fields (ra := 1) (rb := 3) (ie := true) (jo := 4)) := by decide
/-- V78. -/
theorem test_decode_jne : decode 0x0000001DFC000300#64 = .jne (fields (ra := 1) (ie := true) (jo := 254)) := by decide
/-- V14. -/
theorem test_decode_scan : decode 0x0000001E000201C8#64 = .scan (fields (ws := 1) (rb := 200) (ie := true)) := by decide
/-- V55. -/
theorem test_decode_ramWrite : decode 0x0000002001FE0101#64 = .ramWrite (fields (ws := 255) (rb := 1) (ie := true)) := by decide
/-- V58. -/
theorem test_decode_ramRead : decode 0x00000022000400FF#64 = .ramRead (fields (ws := 2) (rb := 255)) := by decide
/-- V61. -/
theorem test_decode_output : decode 0x0000002400060501#64 = .output (fields (ra := 2) (ws := 3) (rb := 1) (ie := true)) := by decide
/-- V43. -/
theorem test_decode_op19 : decode 0x0000002600020202#64 = .op19 (fields (ra := 1) (ws := 1) (rb := 2)) := by decide
/-- `OP20 r3, r0, #1`: R81. -/
theorem test_decode_op20 : decode 0x0000002800080301#64 = .op20 (fields (ra := 1) (ws := 4) (rb := 1) (ie := true)) := by decide
/-- `OP21 r3, r0, #1`: R81. -/
theorem test_decode_op21 : decode 0x0000002A00080301#64 = .op21 (fields (ra := 1) (ws := 4) (rb := 1) (ie := true)) := by decide
/-- `OP22 r3, r0, #1`: R81. -/
theorem test_decode_op22 : decode 0x0000002C00080301#64 = .op22 (fields (ra := 1) (ws := 4) (rb := 1) (ie := true)) := by decide
/-- `OP23 r3, r0, #1`: R81. -/
theorem test_decode_op23 : decode 0x0000002E00080301#64 = .op23 (fields (ra := 1) (ws := 4) (rb := 1) (ie := true)) := by decide
/-- `OP24 r3, r0, #1`: R81. -/
theorem test_decode_op24 : decode 0x0000003000080301#64 = .op24 (fields (ra := 1) (ws := 4) (rb := 1) (ie := true)) := by decide
/-- V41. -/
theorem test_decode_op25 : decode 0x0000003200080301#64 = .op25 (fields (ra := 1) (ws := 4) (rb := 1) (ie := true)) := by decide
/-- `OP26 r3, r0, #1`: R81. -/
theorem test_decode_op26 : decode 0x0000003400080301#64 = .op26 (fields (ra := 1) (ws := 4) (rb := 1) (ie := true)) := by decide
/-- `OP27 r3, r0, #1`: R81. -/
theorem test_decode_op27 : decode 0x0000003600080301#64 = .op27 (fields (ra := 1) (ws := 4) (rb := 1) (ie := true)) := by decide
/-- `OP28 r3, r0, #1`: R81. -/
theorem test_decode_op28 : decode 0x0000003800080301#64 = .op28 (fields (ra := 1) (ws := 4) (rb := 1) (ie := true)) := by decide
/-- `OP29 r3, r0, #1`: R81. -/
theorem test_decode_op29 : decode 0x0000003A00080301#64 = .op29 (fields (ra := 1) (ws := 4) (rb := 1) (ie := true)) := by decide
/-- `OP30 r3, r0, #1`: R81. -/
theorem test_decode_op30 : decode 0x0000003C00080301#64 = .op30 (fields (ra := 1) (ws := 4) (rb := 1) (ie := true)) := by decide
/-- V42. -/
theorem test_decode_op31 : decode 0x0000003E00000301#64 = .op31 (fields (ra := 1) (rb := 1) (ie := true)) := by decide

/-- 30_encoding.md R85, and the highest value of every field. -/
theorem test_encode : encode (.add (fields (ra := 1) (ws := 2) (rb := 5) (ie := true))) = 0x0000000000040305#64
    ∧ encode (.op31 (fields 255 255 255 true 255 true true)) = 0x000000FFFFFFFFFF#64 := by decide

/-! ### One step -/

/-- V5: a RAM fetch, and bits 63..40 ignored. -/
theorem test_add_ram_fetch : seen (ramAt 0xABCDEF4000040133#64 2 []) 1 = (51, .ram, 3) := by decide
/-- V19, from x[1] = 9. -/
theorem test_add_wraps : seen (romAt 0x0000000000040301#64 0 [(0, 0xFFFFFFFF), (1, 9)]) 1 = (0, .rom, 1) := by decide
/-- V20. -/
theorem test_sub : seen (romAt 0x0000000200060202#64 0 [(0, 9), (1, 4)]) 2 = (5, .rom, 1) := by decide
/-- V21. -/
theorem test_sub_wraps : seen (romAt 0x0000000200060202#64 0 [(0, 3), (1, 5)]) 2 = (0xFFFFFFFE, .rom, 1) := by decide
/-- V22. -/
theorem test_mul : seen (romAt 0x0000000400060202#64 0 [(0, 6), (1, 7)]) 2 = (42, .rom, 1) := by decide
/-- V24. -/
theorem test_mul_low_word : seen (romAt 0x0000000400060201#64 0 [(0, 0xFFFFFFFF)]) 2 = (1, .rom, 1) := by decide
/-- V25. -/
theorem test_div : seen (romAt 0x0000000600060202#64 0 [(0, 100), (1, 7)]) 2 = (14, .rom, 1) := by decide
/-- V26. -/
theorem test_div_by_zero : (readReg (after (romAt 0x0000000600060300#64 0 [(0, 100)])) 2,
    (after (romAt 0x0000000600060300#64 0 [(0, 100)])).trace.contains .divideByZero) = (256, true) := by decide
/-- V30. -/
theorem test_or : seen (romAt 0x000000080006030A#64 0 [(0, 12)]) 2 = (14, .rom, 1) := by decide
/-- V32. -/
theorem test_and : seen (romAt 0x0000000A000603FF#64 0 [(0, 0x12345678)]) 2 = (120, .rom, 1) := by decide
/-- V33. -/
theorem test_xor : seen (romAt 0x0000000C0006030A#64 0 [(0, 12)]) 2 = (6, .rom, 1) := by decide
/-- V35. -/
theorem test_shiftR_of_the_sum : seen (romAt 0x0000000E00060304#64 0 [(0, 6)]) 2 = (5, .rom, 1) := by decide
/-- V36, from x[2] = 9. -/
theorem test_shiftR_wraps_first : seen (romAt 0x0000000E00060301#64 0 [(0, 0xFFFFFFFF), (2, 9)]) 2 = (0, .rom, 1) := by decide
/-- V38. -/
theorem test_shiftL_of_the_sum : seen (romAt 0x0000001000060304#64 0 [(0, 6)]) 2 = (20, .rom, 1) := by decide
/-- V39, from x[2] = 9. -/
theorem test_shiftL_drops_bit_31 : seen (romAt 0x0000001000060200#64 0 [(0, 0x80000000), (2, 9)]) 2 = (0, .rom, 1) := by decide
/-- V66. -/
theorem test_je_writes_its_sum : seen (romAt 0x0000001208040303#64 10 [(0, 3)]) 1 = (6, .rom, 14) := by decide
/-- V80. -/
theorem test_je_wraps : seen (romAt 0x0000001390000000#64 100 []) 0 = (0, .rom, 44) := by decide
/-- V70. -/
theorem test_jle_goto : seen (romAt 0x0000009402000303#64 0 [(0, 2)]) 0 = (2, .rom, 5) := by decide
/-- V86. -/
theorem test_jle_in_ram : seen (ramAt 0x0000005402000102#64 0 []) 0 = (0, .ram, 2) := by decide
/-- V73. -/
theorem test_jge_unsigned : seen (romAt 0x0000001604000301#64 0 [(0, 0xFFFFFFFF)]) 0 = (0xFFFFFFFF, .rom, 2) := by decide
/-- V91. -/
theorem test_jge_switches : seen (romAt 0x000000D602000302#64 0 [(0, 40)]) 0 = (40, .ram, 42) := by decide
/-- V74. -/
theorem test_jl_back : seen (romAt 0x00000019FE000303#64 5 [(0, 2)]) 0 = (2, .rom, 4) := by decide
/-- V75. -/
theorem test_jl_equal : seen (romAt 0x0000001812000201#64 5 [(0, 2)]) 0 = (2, .rom, 6) := by decide
/-- V76. -/
theorem test_jg_equal : seen (romAt 0x0000001A08000303#64 5 [(0, 3)]) 0 = (3, .rom, 6) := by decide
/-- V77. -/
theorem test_jg_taken : seen (romAt 0x0000001A08000303#64 5 [(0, 4)]) 0 = (4, .rom, 9) := by decide
/-- V78. -/
theorem test_jne_taken : seen (romAt 0x0000001DFC000300#64 3 [(0, 4)]) 0 = (4, .rom, 1) := by decide
/-- V79. -/
theorem test_jne_equal : seen (romAt 0x0000001DFC000300#64 3 []) 0 = (0, .rom, 4) := by decide
/-- V45. -/
theorem test_scan_adds : seen (romAt 0x0000001E00040200#64 0 [(0, 5)] [] [.integer 10]) 1 = (15, .rom, 1) := by decide
/-- V48. -/
theorem test_scan_out_of_range : let t := after (romAt 0x0000001E00020400#64 0 [(1, 3)] [] [.integer (-1)])
    (readReg t 0, t.input, t.trace.contains (.scanOutOfRange (-1))) = (3, [], true) := by decide
/-- V52. -/
theorem test_ramWrite : let t := after (romAt 0x0000002000020200#64 0 [(0, 511)])
    (t.mem, t.output, readReg t 0) = ([(0, 255)], [511], 511) := by decide
/-- V51, with every event of the step in order (60_exceptions.md R262). -/
theorem test_ramWrite_events : (after (romAt 0x0000002000080107#64)).trace =
    [.fetch .rom 0 0x0000002000080107#64, .operandResolve 0 7, .dispatch 16 7 0, .writeBack (.mem 3 7),
      .branchDecision .rom 1] := by decide
/-- V57. -/
theorem test_ramRead : seen (romAt 0x0000002200040204#64 0 [(0, 1)] [(3, 7)]) 1 = (8, .rom, 1) := by decide
/-- V12. -/
theorem test_ramRead_ignores_ie : seen (romAt 0x0000002200020104#64 0 [] [(3, 90)]) 0 = (90, .rom, 1) := by decide
/-- V59. -/
theorem test_output_no_register : (after (romAt 0x0000002400000400#64 0 [(1, 15)])).output = [15] := by decide
/-- V61. -/
theorem test_output_writes_back : let t := after (romAt 0x0000002400060501#64 0 [(1, 15)])
    (t.output, readReg t 2) = ([16], 16) := by decide
/-- V43. -/
theorem test_op19 : seen (romAt 0x0000002600020202#64 0 [(0, 1), (1, 2)]) 0 = (3, .rom, 1) := by decide
/-- V41. -/
theorem test_op25 : seen (romAt 0x0000003200080301#64 0 [(0, 41)]) 3 = (42, .rom, 1) := by decide
/-- V42: no register is named. -/
theorem test_op31 : seen (romAt 0x0000003E00000301#64 0 [(0, 41)]) 0 = (41, .rom, 1) := by decide
/-- The other unassigned opcodes act as ADD (42_alu.md R160): `OPn r3, r0, #1` with x[0] = 41. -/
theorem test_unassigned : ∀ n ∈ [20, 21, 22, 23, 24, 26, 27, 28, 29, 30],
    seen (romAt (BitVec.ofNat 64 (n * 2 ^ 33 + 0x80301)) 0 [(0, 41)]) 3 = (42, .rom, 1) := by decide

/-! ### The end of a run, and the word the host places -/

/-- V2 and V4. -/
theorem test_halts : (after (romAt 0 256)).run = .halted ∧ (after (ramAt 0 32)).run = .halted
    ∧ (after (romAt 0 256)).trace = [.addressOutOfRange .rom 256] := by decide

/-- V8, V64, V49; V17: the fault of operand A comes before the wait. -/
theorem test_model_faults : (after (romAt 0x0000000000022200#64)).run = .faulted (.readASelectorOutOfRange 17)
    ∧ (after (romAt 0x0000000000220101#64)).run = .faulted (.writeSelectorOutOfRange 17)
    ∧ (after (romAt 0x0000001E00020000#64 0 [] [] [.malformed])).run = .faulted .malformedInput
    ∧ (after (romAt 0x0000001E00022200#64)).run = .faulted (.readASelectorOutOfRange 17) := by decide

/-- V50: the step waits, and completes when a token has come (V44). -/
theorem test_scan_waits : stepEnabled (romAt 0x0000001E00020000#64) = false
    ∧ (after (romAt 0x0000001E00020000#64)).scanWait = true
    ∧ readReg (after ((after (romAt 0x0000001E00020000#64)).supplyInput [.integer 10])) 0 = 10 := by decide

/-- `ADD r0, _, #5` of program P2, placed at reset, is the first instruction executed. -/
theorem test_placed : (after (State.reset.withFetchWord 40 0x0000000000020105)).regs = regsFrom [(0, 5)] := by decide

/-! ### Witnesses: the hypotheses of every statement can be met, clause by clause, at the ends of their ranges -/

/-- SCAN with operand A in range, in the ways a witness needs. -/
def scanWord : Container := 0x0000001E00020000#64

/-- Both ends of the opcode map. -/
theorem witness_OpcodeFieldSelectsInstruction :
    (0, Instr.add) ∈ opcodeMap ∧ (0x000000C1FFFFFFFF#64 &&& opcodeMask) = BitVec.ofNat 64 (0 * 2 ^ 33)
    ∧ (31, Instr.op31) ∈ opcodeMap ∧ (0xFFFFFFFFFFFFFFFF#64 &&& opcodeMask) = BitVec.ofNat 64 (31 * 2 ^ 33) :=
  ⟨by simp [opcodeMap], by decide, by simp [opcodeMap], by decide⟩

theorem witness_UpperBitsDoNotDecode :
    (0xFFFFFF00000201AB#64 &&& 0xFFFFFFFFFF#64) = (0x00000000000201AB#64 &&& 0xFFFFFFFFFF#64) := by decide

/-- At a new instruction and at a waiting one. -/
theorem witness_StepRunsDecodedInstruction :
    (romAt scanWord).run = .running ∧ fetchWord (romAt scanWord) = some scanWord
    ∧ (after (romAt scanWord)).run = .running ∧ (after (romAt scanWord)).scanWait = true
    ∧ fetchWord (after (romAt scanWord)) = some scanWord := by decide

/-- Both clauses, at 255 and at 256. -/
theorem witness_RomFetchIndexesProgramTable :
    (romAt 5 255).mode = .rom ∧ (romAt 5 255).pc.toNat < 256
    ∧ (romAt 5 256).mode = .rom ∧ 256 ≤ (romAt 5 256).pc.toNat ∧ (romAt 5 256).run = .running := by decide

/-- Both clauses, at 31 and at 32. -/
theorem witness_RamFetchIsLittleEndianSlot :
    (ramAt 5 31).mode = .ram ∧ (ramAt 5 31).pc.toNat ≤ 31 ∧ (ramAt 5 32).mode = .ram ∧ 32 ≤ (ramAt 5 32).pc.toNat := by
  decide

/-- In each space, the first `pc` that halts. -/
theorem witness_OutOfRangeFetchHalts :
    (romAt 0 256).run = .running ∧ (romAt 0 256).mode = .rom ∧ 255 < (romAt 0 256).pc.toNat
    ∧ (ramAt 0 32).run = .running ∧ (ramAt 0 32).mode = .ram ∧ 248 < 8 * (ramAt 0 32).pc.toNat := by decide

theorem witness_EndedRunIgnoresRequests :
    (after (romAt 0 256)).run ≠ .running ∧ (after (romAt 0x0000000000022200#64)).run ≠ .running := by decide

/-- A step that halts and one that does not. -/
theorem witness_OnlyFetchHalts :
    (romAt 0 256).run = .running ∧ step (romAt 0 256) = .next (after (romAt 0 256))
    ∧ (romAt 0 255).run = .running ∧ step (romAt 0 255) = .next (after (romAt 0 255)) :=
  ⟨by decide, rfl, by decide, rfl⟩

/-- The last register and the last program entry. -/
theorem witness_ConstructionState : 15 < 16 ∧ 255 < 256 := by decide

/-- Both selectors at each end of their range, for every opcode of 42_alu.md. -/
theorem witness_DefaultSumOpcodes :
    (fields (ra := 0) (ws := 0)).ra.toNat ≤ 16 ∧ (fields (ra := 0) (ws := 0)).ws.toNat ≤ 16
    ∧ (fields (ra := 16) (ws := 16)).ra.toNat ≤ 16 ∧ (fields (ra := 16) (ws := 16)).ws.toNat ≤ 16 := by decide

theorem witness_SubtractAndMultiply :
    (fields (ra := 16) (ws := 16)).ra.toNat ≤ 16 ∧ (fields (ra := 16) (ws := 16)).ws.toNat ≤ 16 := by decide

/-- A zero divisor and another. -/
theorem witness_DivideOrSentinel :
    (fields (ra := 16) (ws := 16)).ra.toNat ≤ 16 ∧ (fields (ra := 16) (ws := 16)).ws.toNat ≤ 16
    ∧ (specB State.reset (fields (ra := 16) (ws := 16) (rb := 16))).toNat = 0
    ∧ (specB State.reset (fields (ra := 16) (ws := 16) (rb := 1) (ie := true))).toNat ≠ 0 := by decide

theorem witness_BitwiseOpcodes :
    (fields (ra := 16) (ws := 16)).ra.toNat ≤ 16 ∧ (fields (ra := 16) (ws := 16)).ws.toNat ≤ 16 := by decide

theorem witness_ShiftsActOnTheSum :
    (fields (ra := 16) (ws := 16)).ra.toNat ≤ 16 ∧ (fields (ra := 16) (ws := 16)).ws.toNat ≤ 16 := by decide

/-- Operands that are equal and operands that are not, in range. -/
theorem witness_ComparisonOpcodes :
    (fields (ra := 16) (ws := 16)).ra.toNat ≤ 16 ∧ (fields (ra := 16) (ws := 16)).ws.toNat ≤ 16
    ∧ specA State.reset (fields (ra := 16)) = specB State.reset (fields (ra := 16) (rb := 0))
    ∧ specA State.reset (fields (ra := 16)) ≠ specB State.reset (fields (ra := 16) (rb := 1) (ie := true)) := by decide

/-- The integers at and beyond both ends of the accepted range; the two other clauses. -/
theorem witness_ScanTakesOneToken :
    (fields (ra := 16) (ws := 16)).ra.toNat ≤ 16 ∧ (fields (ra := 16) (ws := 16)).ws.toNat ≤ 16
    ∧ (withInput [.integer 0]).input = .integer 0 :: []
    ∧ (withInput [.integer 4294967295]).input = .integer 4294967295 :: []
    ∧ (withInput [.integer 4294967296]).input = .integer 4294967296 :: []
    ∧ (withInput [.integer (-1), .malformed]).input = .integer (-1) :: [.malformed]
    ∧ (withInput []).input = [] ∧ (withInput [.malformed]).input = .malformed :: [] := by decide

theorem witness_RamWriteStoresAndEmits :
    (fields (ra := 16) (ws := 0)).ra.toNat ≤ 16 ∧ (254#8).toNat + 1 = (fields (ra := 16) (ws := 255)).ws.toNat := by decide

theorem witness_RamReadAddsByte :
    (fields (ra := 16) (ws := 16) (rb := 255)).ra.toNat ≤ 16
    ∧ (fields (ra := 16) (ws := 16) (rb := 255)).ws.toNat ≤ 16 := by decide

theorem witness_OutputEmitsSum :
    (fields (ra := 16) (ws := 16)).ra.toNat ≤ 16 ∧ (fields (ra := 16) (ws := 16)).ws.toNat ≤ 16 := by decide

theorem witness_ReadASelectorFaultsFirst :
    17 ≤ (operandsOf (.add (fields (ra := 17)))).ra.toNat ∧ 17 ≤ (operandsOf (.scan (fields (ra := 255)))).ra.toNat := by
  decide

/-- Both ends of the range, and a SCAN that has its token. -/
theorem witness_WriteSelectorFaultsAfterDispatch :
    (opcodeOf (.add (fields (ra := 16) (ws := 17))) ≠ 16#5
      ∧ (operandsOf (.add (fields (ra := 16) (ws := 17)))).ra.toNat ≤ 16
      ∧ TokenReady (.add (fields (ra := 16) (ws := 17))) State.reset
      ∧ 17 ≤ (operandsOf (.add (fields (ra := 16) (ws := 17)))).ws.toNat)
    ∧ (opcodeOf (.scan (fields (ws := 255))) ≠ 16#5 ∧ (operandsOf (.scan (fields (ws := 255)))).ra.toNat ≤ 16
      ∧ TokenReady (.scan (fields (ws := 255))) (withInput [.integer 1])
      ∧ 17 ≤ (operandsOf (.scan (fields (ws := 255)))).ws.toNat) :=
  ⟨⟨by decide, by decide, fun h => absurd h (by decide), by decide⟩,
    ⟨by decide, by decide, fun _ => ⟨1, [], rfl⟩, by decide⟩⟩

/-- A step of each of the three faults, and one without. -/
theorem witness_ModelFaultsAreExactlyThree :
    (withInput [.malformed]).run = .running
    ∧ exec (.add (fields (ra := 17))) (withInput [.malformed])
        = .next (afterExec (.add (fields (ra := 17))) (withInput [.malformed]))
    ∧ exec (.scan fields) (withInput [.malformed]) = .next (afterExec (.scan fields) (withInput [.malformed]))
    ∧ exec (.add (fields (ws := 17))) (withInput [.malformed])
        = .next (afterExec (.add (fields (ws := 17))) (withInput [.malformed]))
    ∧ exec (.ramWrite (fields (ws := 17))) (withInput [.malformed])
        = .next (afterExec (.ramWrite (fields (ws := 17))) (withInput [.malformed])) :=
  ⟨by decide, rfl, rfl, rfl, rfl⟩

theorem witness_SelectorWarningContinues :
    opcodeOf (.add (fields (ra := 16) (ws := 16) (rb := 17))) ≠ 15#5
    ∧ opcodeOf (.add (fields (ra := 16) (ws := 16) (rb := 17))) ≠ 17#5
    ∧ (operandsOf (.add (fields (ra := 16) (ws := 16) (rb := 17)))).ie = false
    ∧ 17 ≤ (operandsOf (.add (fields (ra := 16) (ws := 16) (rb := 17)))).rb.toNat
    ∧ (operandsOf (.add (fields (ra := 16) (ws := 16) (rb := 17)))).ra.toNat ≤ 16
    ∧ (Instr.add (fields (ra := 16) (ws := 16) (rb := 17))).WellFormed = true := by decide

/-- The clause of RAM_WRITE, and the two of the others at 16 and at 17. -/
theorem witness_WriteBackCommitsOutput :
    (opcodeOf (.ramWrite (fields (ra := 16))) = 16#5 ∧ (operandsOf (.ramWrite (fields (ra := 16)))).ra.toNat ≤ 16
      ∧ TokenReady (.ramWrite (fields (ra := 16))) State.reset)
    ∧ (opcodeOf (.scan (fields (ws := 16))) ≠ 16#5 ∧ (operandsOf (.scan (fields (ws := 16)))).ra.toNat ≤ 16
      ∧ TokenReady (.scan (fields (ws := 16))) (withInput [.integer 1])
      ∧ (operandsOf (.scan (fields (ws := 16)))).ws.toNat ≤ 16)
    ∧ (opcodeOf (.je (fields (ws := 17))) ≠ 16#5 ∧ TokenReady (.je (fields (ws := 17))) State.reset
      ∧ 17 ≤ (operandsOf (.je (fields (ws := 17)))).ws.toNat) :=
  ⟨⟨by decide, by decide, fun h => absurd h (by decide)⟩,
    ⟨by decide, by decide, fun _ => ⟨1, [], rfl⟩, by decide⟩,
    ⟨by decide, fun h => absurd h (by decide), by decide⟩⟩

/-- A step whose successor fetches, and one whose successor halts. -/
theorem witness_NextFetchTarget :
    CanComplete (.add (fields (ra := 16) (ws := 16))) State.reset ∧ State.reset.run = .running
    ∧ CanComplete (.add fields) (romAt 0 255) ∧ (romAt 0 255).run = .running :=
  ⟨⟨by decide, fun h => absurd h (by decide)⟩, by decide, ⟨by decide, fun h => absurd h (by decide)⟩, by decide⟩

/-- A switch each way, from and to the last index of a space. -/
theorem witness_SpaceSwitchGoesToOutput :
    (CanComplete (.je (fields (rb := 31) (ie := true) (r := true) (jo := 5))) (romAt 0 255)
      ∧ (romAt 0 255).mode ≠ spaceOf (operandsOf (.je (fields (rb := 31) (ie := true) (r := true) (jo := 5)))).r
      ∧ (afterExec (.je (fields (rb := 31) (ie := true) (r := true) (jo := 5))) (romAt 0 255)).pc = 31
      ∧ (31#32).toNat ≤ 31 ∧ 7 < 8)
    ∧ (CanComplete (.add (fields (rb := 255) (ie := true))) (ramAt 0 31)
      ∧ (ramAt 0 31).mode ≠ spaceOf (operandsOf (.add (fields (rb := 255) (ie := true)))).r
      ∧ (afterExec (.add (fields (rb := 255) (ie := true))) (ramAt 0 31)).pc = 255 ∧ (255#32).toNat ≤ 255) :=
  ⟨⟨⟨by decide, fun h => absurd h (by decide)⟩, by decide, by decide, by decide, by decide⟩,
    ⟨⟨by decide, fun h => absurd h (by decide)⟩, by decide, by decide, by decide⟩⟩

/-- A taken relative branch that wraps (V80), and a step of the other clause. -/
theorem witness_RelativeBranchNeverHalts :
    (CanComplete (.je (fields (jo := 200))) (romAt 0 100)
      ∧ exec (.je (fields (jo := 200))) (romAt 0 100) = .next (afterExec (.je (fields (jo := 200))) (romAt 0 100))
      ∧ Dispatched (.je (fields (jo := 200))) (romAt 0 100) (afterExec (.je (fields (jo := 200))) (romAt 0 100)) 0 200
      ∧ (romAt 0 100).mode = .rom ∧ (200#8 : Byte) ≠ 0#8)
    ∧ (CanComplete (.je (fields (rb := 1) (ie := true) (jo := 200))) (romAt 0 255)
      ∧ exec (.je (fields (rb := 1) (ie := true) (jo := 200))) (romAt 0 255)
          = .next (afterExec (.je (fields (rb := 1) (ie := true) (jo := 200))) (romAt 0 255))
      ∧ Dispatched (.je (fields (rb := 1) (ie := true) (jo := 200))) (romAt 0 255)
          (afterExec (.je (fields (rb := 1) (ie := true) (jo := 200))) (romAt 0 255)) 1 0) :=
  ⟨⟨⟨by decide, fun h => absurd h (by decide)⟩, rfl, by unfold Dispatched; decide, by decide, by decide⟩,
    ⟨⟨by decide, fun h => absurd h (by decide)⟩, rfl, by unfold Dispatched; decide⟩⟩

/-- Each of the three conditions. -/
theorem witness_GotoBitNeedsTakenBranch :
    (exec (.je (fields (jo := 1))) (ramAt 0 3) = .next (afterExec (.je (fields (jo := 1))) (ramAt 0 3))
      ∧ (ramAt 0 3).mode = .ram)
    ∧ (exec (.je (fields (jo := 1) (r := true))) State.reset
          = .next (afterExec (.je (fields (jo := 1) (r := true))) State.reset)
      ∧ (operandsOf (.je (fields (jo := 1) (r := true)))).r = true)
    ∧ (exec (.add fields) State.reset = .next (afterExec (.add fields) State.reset)
      ∧ ∀ out branch, Dispatched (.add fields) State.reset (afterExec (.add fields) State.reset) out branch →
          branch = 0#8) := by
  refine ⟨⟨rfl, by decide⟩, ⟨rfl, by decide⟩, ⟨rfl, fun out branch h => ?_⟩⟩
  have e : newEvents State.reset (afterExec (.add fields) State.reset)
      = [.operandResolve 0 0, .dispatch 0 0 0, .branchDecision .rom 1] := by decide
  unfold Dispatched at h
  rw [e] at h
  simp at h
  exact h.2.2

/-- The opcodes next to the comparisons. -/
theorem witness_UnreadFieldsDoNotMatter :
    (opcodeOf (.shiftL fields)).toNat < 9 ∧ 14 < (opcodeOf (.scan fields)).toNat := by decide

/-- A warning with an error (`DIV r0, _, %17`), a SCAN's warning, and a memory write. -/
theorem witness_EventsOfCompletedStep :
    ((romAt 0x0000000600020011#64).run = .running ∧ (romAt 0x0000000600020011#64).scanWait = false
      ∧ fetchWord (romAt 0x0000000600020011#64) = some 0x0000000600020011#64
      ∧ CanComplete (decode 0x0000000600020011#64) (romAt 0x0000000600020011#64))
    ∧ (fetchWord (romAt scanWord 0 [] [] [.integer (-1)]) = some scanWord
      ∧ CanComplete (decode scanWord) (romAt scanWord 0 [] [] [.integer (-1)]))
    ∧ (fetchWord (romAt 0x0000002001FE0101#64) = some 0x0000002001FE0101#64
      ∧ CanComplete (decode 0x0000002001FE0101#64) (romAt 0x0000002001FE0101#64)) :=
  ⟨⟨by decide, by decide, by decide, by decide, fun h => absurd h (by decide)⟩,
    ⟨by decide, by decide, fun _ => ⟨-1, [], rfl⟩⟩, ⟨by decide, by decide, fun h => absurd h (by decide)⟩⟩

/-- A store, a fetch of the last entry, and two different programs with one memory image. -/
theorem witness_ProgramTableIsReadOnly :
    step (romAt 0x0000002001FE0101#64) = .next (after (romAt 0x0000002001FE0101#64))
    ∧ (romAt 0 255).mode = .rom ∧ (romAt 0 255).pc.toNat ≤ 255
    ∧ Params.initMem ⟨Vector.replicate 256 0, Vector.replicate 256 7, [], 1, 0⟩
        = Params.initMem ⟨Vector.replicate 256 1, Vector.replicate 256 7, [], 2, 3⟩ :=
  ⟨rfl, by decide, by decide, rfl⟩

/-- A register write next to x[15], and a memory write next to M[255]. -/
theorem witness_OneWritePerStep :
    (exec (.add (fields (ws := 15))) State.reset = .next (afterExec (.add (fields (ws := 15))) State.reset)
      ∧ (afterExec (.add (fields (ws := 15))) State.reset).NotFaulted
      ∧ opcodeOf (.add (fields (ws := 15))) ≠ 16#5 ∧ 15 < 16
      ∧ 15 + 1 ≠ (operandsOf (.add (fields (ws := 15)))).ws.toNat)
    ∧ (exec (.ramWrite (fields (ws := 255))) State.reset
          = .next (afterExec (.ramWrite (fields (ws := 255))) State.reset)
      ∧ (afterExec (.ramWrite (fields (ws := 255))) State.reset).NotFaulted
      ∧ opcodeOf (.ramWrite (fields (ws := 255))) = 16#5
      ∧ (255#8).toNat + 1 ≠ (operandsOf (.ramWrite (fields (ws := 255)))).ws.toNat) :=
  ⟨⟨rfl, notFaulted_of_running (by decide), by decide, by decide, by decide⟩,
    ⟨rfl, notFaulted_of_running (by decide), by decide, by decide⟩⟩

/-- The highest store there is. -/
theorem witness_TopByteIsNeverWritten :
    step (romAt 0x0000002001FE0101#64 0 [] [(255, 3)]) = .next (after (romAt 0x0000002001FE0101#64 0 [] [(255, 3)]))
    ∧ (after (romAt 0x0000002001FE0101#64 0 [] [(255, 3)])).NotFaulted :=
  ⟨rfl, notFaulted_of_running (by decide)⟩

/-- Each of the two opcodes, and another. -/
theorem witness_ConsoleOutputByTwoOpcodes :
    (exec (.ramWrite fields) State.reset = .next (afterExec (.ramWrite fields) State.reset)
      ∧ (afterExec (.ramWrite fields) State.reset).NotFaulted)
    ∧ (exec (.output fields) State.reset = .next (afterExec (.output fields) State.reset)
      ∧ (afterExec (.output fields) State.reset).NotFaulted)
    ∧ (exec (.ramRead fields) State.reset = .next (afterExec (.ramRead fields) State.reset)
      ∧ (afterExec (.ramRead fields) State.reset).NotFaulted) :=
  ⟨⟨rfl, notFaulted_of_running (by decide)⟩, ⟨rfl, notFaulted_of_running (by decide)⟩,
    ⟨rfl, notFaulted_of_running (by decide)⟩⟩

theorem witness_OnlyScanTakesTokens :
    exec (.scan fields) (withInput [.integer 1]) = .next (afterExec (.scan fields) (withInput [.integer 1]))
    ∧ exec (.add fields) (withInput [.integer 1]) = .next (afterExec (.add fields) (withInput [.integer 1])) :=
  ⟨rfl, rfl⟩

/-- The first and the last cell a store reaches: `RAM_WRITE.R` from ROM into slot 0, and in RAM into slot 31. -/
theorem witness_StoreSeenByNextFetch :
    (exec (.ramWrite (fields (ws := 1) (r := true))) State.reset
          = .next (afterExec (.ramWrite (fields (ws := 1) (r := true))) State.reset)
      ∧ (fields (ws := 1) (r := true)).ra.toNat ≤ 16 ∧ 1 ≤ (fields (ws := 1) (r := true)).ws.toNat
      ∧ (afterExec (.ramWrite (fields (ws := 1) (r := true))) State.reset).mode = .ram
      ∧ (afterExec (.ramWrite (fields (ws := 1) (r := true))) State.reset).pc.toNat
          = ((fields (ws := 1) (r := true)).ws.toNat - 1) / 8)
    ∧ (exec (.ramWrite (fields (ra := 16) (ws := 255) (r := true))) (ramAt 0 30)
          = .next (afterExec (.ramWrite (fields (ra := 16) (ws := 255) (r := true))) (ramAt 0 30))
      ∧ (fields (ra := 16) (ws := 255) (r := true)).ra.toNat ≤ 16
      ∧ (afterExec (.ramWrite (fields (ra := 16) (ws := 255) (r := true))) (ramAt 0 30)).mode = .ram
      ∧ (afterExec (.ramWrite (fields (ra := 16) (ws := 255) (r := true))) (ramAt 0 30)).pc.toNat
          = ((fields (ra := 16) (ws := 255) (r := true)).ws.toNat - 1) / 8) :=
  ⟨⟨rfl, by decide, by decide, by decide, by decide⟩, ⟨rfl, by decide, by decide, by decide⟩⟩

theorem witness_ScanWaitIsTransparent :
    (romAt scanWord).run = .running ∧ (romAt scanWord).scanWait = false ∧ awaitsToken (romAt scanWord) = true
    ∧ [Token.integer 10] ≠ [] := by decide

/-- Two cores that differ in bits 63..40 of entry 0 and in M[255]. -/
theorem witness_IgnoredBitsNeverMatter :
    SameToPrograms (romAt 0x0000000000020105#64) (romAt 0xABCDEF0000020105#64 0 [] [(255, 3)])
    ∧ step (romAt 0x0000000000020105#64) = .next (after (romAt 0x0000000000020105#64))
    ∧ step (romAt 0xABCDEF0000020105#64 0 [] [(255, 3)]) = .next (after (romAt 0xABCDEF0000020105#64 0 [] [(255, 3)])) := by
  refine ⟨⟨rfl, rfl, rfl, rfl, rfl, fun i => ?_, fun a ha => ?_, rfl, rfl, rfl⟩, rfl, rfl⟩
  · simp only [romWord, romAt, readCell_writeCell]
    split
    · decide
    · rfl
  · have h : ¬ a.toNat = 255 := fun h => ha (BitVec.eq_of_toNat_eq h)
    simp [memRead, romAt, readCell, h]

theorem inv_after_scan : (after (romAt scanWord)).Inv :=
  ⟨by decide, by decide, fun _ => ⟨by decide, scanWord, fields (ws := 1), by decide, by decide, by decide⟩, fun h => absurd h (by decide)⟩

/-- From a waiting SCAN and from a halted core. -/
theorem witness_InvariantKeptByStep :
    ((after (romAt scanWord)).Inv ∧ (after (romAt scanWord)).scanWait = true
      ∧ step (after (romAt scanWord)) = .next (after (after (romAt scanWord))))
    ∧ ((after (romAt 0 256)).Inv ∧ (after (romAt 0 256)).run = .halted
      ∧ step (after (romAt 0 256)) = .next (after (after (romAt 0 256)))) :=
  ⟨⟨inv_after_scan, by decide, rfl⟩,
    ⟨⟨by decide, by decide, fun h => absurd h (by decide), fun _ => by decide⟩, by decide, rfl⟩⟩

theorem witness_InvariantKeptByInput : (after (romAt scanWord)).Inv := inv_after_scan

end Sys2Proof.Tests
end

/-! SUPPORT. The Fetch Unit, one lemma per branch, and what a running core does with a fetch that is out of range
(20_memory.md R55, R57; 40_cycle.md R113). -/

namespace Sys2Proof.Machine

/-- A fetch in ROM space reads the program table at `pc`, up to its last entry (20_memory.md R55). -/
theorem fetchWord_rom {s : State} (hmode : s.mode = .rom) (hpc : s.pc.toNat ≤ 255) :
    fetchWord s = some (romWord s s.pc.toNat) := by
  simp [fetchWord, hmode, lastIndex, hpc]

/-- A fetch above the last index of its space has no word (20_memory.md R55, R57). -/
theorem fetchWord_eq_none {s : State} (hpc : lastIndex s.mode < s.pc.toNat) : fetchWord s = none := by
  simp [fetchWord, Nat.not_le.mpr hpc]

/-- A running core whose fetch has no word halts (40_cycle.md R113). -/
theorem step_of_fetchWord_eq_none {s : State} (hrun : s.run = .running) (hfetch : fetchWord s = none) :
    step s = .next (enterHalted s) := by
  simp [step, hrun, hfetch]

end Sys2Proof.Machine

/-! SUPPORT. The frame of the program table: each phase of a step keeps it, hence every instruction does, hence every
step request, in whatever run state the step ends (20_memory.md R56). -/

namespace Sys2Proof.Machine

/-- The state a phase leaves, whether or not the step goes on. -/
def Phase.state {α : Type} : Phase α → State
  | .go s _ => s
  | .ended s => s

@[simp] theorem Phase.state_go {α : Type} (s : State) (x : α) : (Phase.go s x).state = s := rfl
@[simp] theorem Phase.state_ended {α : Type} (s : State) : (Phase.ended s : Phase α).state = s := rfl

/-! ### Operand Resolve -/

@[simp] theorem resolved_rom (s : State) (a b : Word) : (resolved s a b).state.rom = s.rom := rfl

/-- Operand A keeps the table where the rest of Operand Resolve does; its own fault keeps it too. -/
theorem resolveA_rom {s : State} {next : Word → Phase (Word × Word)} (ra : Byte)
    (hnext : ∀ a, (next a).state.rom = s.rom) : (resolveA s ra next).state.rom = s.rom := by
  obtain ⟨a, -, -, heq⟩ | ⟨-, heq⟩ := resolveA_cases s ra next
  · rw [heq, hnext a]
  · simp [heq]

theorem resolveGeneral_rom (s : State) (f : Fields) : (resolveGeneral s f).state.rom = s.rom :=
  resolveA_rom f.ra fun _ => by simp

theorem resolveMem_rom (s : State) (f : Fields) : (resolveMem s f).state.rom = s.rom :=
  resolveA_rom f.ra fun _ => by simp

/-- Waiting, taking an integer and faulting on a malformed token all keep the table. -/
theorem resolveScan_rom (s : State) (f : Fields) : (resolveScan s f).state.rom = s.rom := by
  refine resolveA_rom f.ra fun a => ?_
  cases s.input with
  | nil => simp
  | cons token rest => cases token <;> simp

theorem resolveOf_rom (i : Instr) (s : State) : (resolveOf i s).state.rom = s.rom := by
  unfold resolveOf
  split_ifs
  · exact resolveScan_rom s _
  · exact resolveMem_rom s _
  · exact resolveGeneral_rom s _

/-! ### Dispatch, Write-Back and Control-Flow -/

/-- RAM_WRITE's store goes to data memory: no Dispatch reaches the table. -/
theorem DispatchSpec.rom {op : BitVec 5} {f : Fields} {d : State → Transient → State × Transient}
    {out : Word → Word → Word} {br : Word → Word → Byte} {errs : Word → Word → List Event}
    (hd : DispatchSpec op f d out br errs) (s : State) (a b : Word) : (d s (dispatchStart a b)).1.rom = s.rom := by
  rw [hd.eq]

theorem writeBack_rom (s : State) (ws : Byte) (c : Transient) : (writeBack s ws c).state.rom = s.rom := by
  obtain ⟨-, heq⟩ | ⟨-, -, heq⟩ | ⟨i, -, -, heq⟩ | ⟨-, -, heq⟩ := writeBack_cases s ws c
  all_goals simp [heq]

@[simp] theorem finishCycle_rom (op : BitVec 5) (f : Fields) (s : State) (c : Transient) :
    (finishCycle op f s c).rom = s.rom := by
  have hwb := writeBack_rom (record s (.dispatch op c.output c.branch)) f.ws c
  obtain ⟨u, hgo, heq⟩ | ⟨u, hended, heq⟩ := finishCycle_cases op f s c
  · simpa [heq, hgo] using hwb
  · simpa [heq, hended] using hwb

/-! ### The whole step -/

theorem exec_rom {i : Instr} {s t : State} (h : exec i s = .next t) : t.rom = s.rom := by
  obtain ⟨d, out, br, errs, hd, hexec⟩ := exec_eq_runCycle i
  have hresolve := resolveOf_rom i s
  rw [hexec] at h
  obtain hended | ⟨u, a, b, hgo, rfl⟩ := runCycle_cases h
  · simpa [hended] using hresolve
  · rw [finishCycle_rom, hd.rom]
    simpa [hgo] using hresolve

theorem step_rom {s t : State} (h : step s = .next t) : t.rom = s.rom := by
  obtain ⟨-, heq⟩ | ⟨-, -, heq⟩ | ⟨w, -, -, heq⟩ := step_cases s
  · obtain rfl : s = t := by simpa [heq] using h
    rfl
  · obtain rfl : enterHalted s = t := by simpa [heq] using h
    exact enterHalted_rom s
  · rw [exec_rom (heq ▸ h), recordFetch_rom]

end Sys2Proof.Machine

/-! The statements of 20_memory.md about the program table. -/

namespace Sys2Proof.Proofs

open Sys2Proof.Machine

/-- Settles O7: the two sides of the fetch's bound on `pc`. -/
theorem romFetchIndexesProgramTable : Obligations.RomFetchIndexesProgramTable := by
  intro s hmode
  refine ⟨fun hpc => fetchWord_rom hmode (by omega), fun hpc => ?_⟩
  have hfetch : fetchWord s = none := fetchWord_eq_none (by simp only [hmode, lastIndex]; omega)
  exact ⟨hfetch, fun hrun =>
    ⟨enterHalted s, step_of_fetchWord_eq_none hrun hfetch, enterHalted_run s, by simp [hmode]⟩⟩

/-- Settles O38: the frame of the table through every step, the ROM-space fetch, and the memory of construction as
INIT_MEM alone. -/
theorem programTableIsReadOnly : Obligations.ProgramTableIsReadOnly := by
  refine ⟨fun s t h k => ?_, fun s => fetchWord_rom, fun p q a hmem => ?_⟩
  · rw [romWord, romWord, step_rom h]
  · rw [memRead_construct, memRead_construct, hmem]

end Sys2Proof.Proofs

/-! SUPPORT. The decoder and the encoder of 30_encoding.md: the opcode map is a bijection (R89), decoding reads the
digits of the word's value (R83), encoding adds them up (R84), and so the two are inverse up to bits 63..40. -/

namespace Sys2Proof

open Sys2Proof.Statements

/-! ### The opcode map: an opcode and seven fields make an instruction, which gives both back -/

/-- The laws of `Laws.OpcodeMap`, for every instruction at once. -/
theorem instrOf_opcodeOf_operandsOf (i : Instr) : instrOf (opcodeOf i) (operandsOf i) = i := by
  cases i <;> rfl

@[simp] theorem operandsOf_instrOf (op : BitVec 5) (f : Fields) : operandsOf (instrOf op f) = f := by
  unfold instrOf
  split <;> rfl

@[simp] theorem opcodeOf_instrOf (op : BitVec 5) (f : Fields) : opcodeOf (instrOf op f) = op := by
  obtain ⟨⟨n, hn⟩⟩ := op
  interval_cases n <;> rfl

@[simp] theorem opcodeOf_decode (w : Container) : opcodeOf (decode w) = fieldOp w := opcodeOf_instrOf _ _

@[simp] theorem operandsOf_decode (w : Container) : operandsOf (decode w) = fieldsOf w := operandsOf_instrOf _ _

/-- The opcode map as a list is `instrOf` tabulated: the two ways the model writes the map down agree. -/
theorem opcodeMap_eq_map_instrOf :
    opcodeMap = (List.range 32).map fun n => (n, instrOf (BitVec.ofNat 5 n)) := rfl

theorem mem_opcodeMap_iff {p : Nat × (Fields → Instr)} :
    p ∈ opcodeMap ↔ ∃ op : BitVec 5, p = (op.toNat, instrOf op) := by
  simp only [opcodeMap_eq_map_instrOf, List.mem_map, List.mem_range]
  constructor
  · rintro ⟨n, hn, rfl⟩
    exact ⟨BitVec.ofNat 5 n, by rw [BitVec.toNat_ofNat, Nat.mod_eq_of_lt hn]⟩
  · rintro ⟨op, rfl⟩
    exact ⟨op.toNat, op.isLt, by rw [BitVec.ofNat_toNat, BitVec.setWidth_eq]⟩

/-! ### The decoder in arithmetic: each field is a digit of the word (30_encoding.md R83) -/

theorem toNat_extractLsb'_eq_div_mod (w : Container) (start len : Nat) :
    (w.extractLsb' start len).toNat = w.toNat / 2 ^ start % 2 ^ len := by
  rw [BitVec.extractLsb'_toNat, Nat.shiftRight_eq_div_pow]

theorem fieldOp_toNat (w : Container) : (fieldOp w).toNat = w.toNat / 2 ^ 33 % 2 ^ 5 :=
  toNat_extractLsb'_eq_div_mod w 33 5

theorem fieldsOf_g_toNat (w : Container) : (fieldsOf w).g.toNat = w.toNat / 2 ^ 39 % 2 :=
  Nat.toNat_testBit w.toNat 39

theorem fieldsOf_r_toNat (w : Container) : (fieldsOf w).r.toNat = w.toNat / 2 ^ 38 % 2 :=
  Nat.toNat_testBit w.toNat 38

theorem fieldsOf_jo_toNat (w : Container) : (fieldsOf w).jo.toNat = w.toNat / 2 ^ 25 % 2 ^ 8 :=
  toNat_extractLsb'_eq_div_mod w 25 8

theorem fieldsOf_ws_toNat (w : Container) : (fieldsOf w).ws.toNat = w.toNat / 2 ^ 17 % 2 ^ 8 :=
  toNat_extractLsb'_eq_div_mod w 17 8

theorem fieldsOf_ra_toNat (w : Container) : (fieldsOf w).ra.toNat = w.toNat / 2 ^ 9 % 2 ^ 8 :=
  toNat_extractLsb'_eq_div_mod w 9 8

theorem fieldsOf_ie_toNat (w : Container) : (fieldsOf w).ie.toNat = w.toNat / 2 ^ 8 % 2 :=
  Nat.toNat_testBit w.toNat 8

theorem fieldsOf_rb_toNat (w : Container) : (fieldsOf w).rb.toNat = w.toNat % 2 ^ 8 := by
  rw [fieldsOf, toNat_extractLsb'_eq_div_mod, Nat.pow_zero, Nat.div_one]

/-! ### The encoder in arithmetic: disjoint fields, so the disjunction is a sum (30_encoding.md R84) -/

/-- The value of an opcode and seven fields as digits in the layout of 30_encoding.md R81. -/
def fieldSum (op : BitVec 5) (f : Fields) : Nat :=
  f.g.toNat * 2 ^ 39 + f.r.toNat * 2 ^ 38 + op.toNat * 2 ^ 33 + f.jo.toNat * 2 ^ 25 + f.ws.toNat * 2 ^ 17
    + f.ra.toNat * 2 ^ 9 + f.ie.toNat * 2 ^ 8 + f.rb.toNat

/-- A field placed in a container is its value times the weight of its lowest bit. -/
theorem toNat_setWidth_shiftLeft {n k : Nat} (x : BitVec n) (hfit : n + k ≤ 64) :
    (x.setWidth 64 <<< k).toNat = x.toNat * 2 ^ k := by
  have hlt : x.toNat * 2 ^ k < 2 ^ 64 :=
    calc x.toNat * 2 ^ k < 2 ^ n * 2 ^ k := Nat.mul_lt_mul_of_pos_right x.isLt (Nat.two_pow_pos k)
      _ = 2 ^ (n + k) := (Nat.pow_add ..).symm
      _ ≤ 2 ^ 64 := Nat.pow_le_pow_right (by decide) hfit
  have hx : x.toNat < 2 ^ 64 := Nat.lt_of_le_of_lt (Nat.le_mul_of_pos_right _ (Nat.two_pow_pos k)) hlt
  rw [BitVec.toNat_shiftLeft, BitVec.toNat_setWidth, Nat.mod_eq_of_lt hx, Nat.shiftLeft_eq, Nat.mod_eq_of_lt hlt]

theorem bitAt_eq_setWidth (b : Bool) : bitAt b = (BitVec.ofBool b).setWidth 64 := by
  cases b <;> rfl

/-- Horner's step: where the bits of `high` from `n + k` up hold `v` and those below are clear, a field of `n` bits
placed at bit `k` becomes the next digit. -/
theorem toNat_or_field {n k v : Nat} {high : Container} (x : BitVec n) (hfit : n + k ≤ 64)
    (hhigh : high.toNat = v * 2 ^ (n + k)) :
    (high ||| x.setWidth 64 <<< k).toNat = (v * 2 ^ n + x.toNat) * 2 ^ k := by
  have hlow : x.toNat * 2 ^ k < 2 ^ (n + k) := by
    rw [Nat.pow_add]
    exact Nat.mul_lt_mul_of_pos_right x.isLt (Nat.two_pow_pos k)
  rw [BitVec.toNat_or, toNat_setWidth_shiftLeft x hfit, hhigh, Nat.mul_comm v, ← Nat.two_pow_add_eq_or_of_lt hlow,
    Nat.pow_add]
  ring

/-- The fields of `encode`, from the highest to the lowest, each added by one Horner step. -/
theorem encode_toNat (i : Instr) : (encode i).toNat = fieldSum (opcodeOf i) (operandsOf i) := by
  have hg := toNat_setWidth_shiftLeft (k := 39) (BitVec.ofBool (operandsOf i).g) (by decide)
  have hr := toNat_or_field (k := 38) (BitVec.ofBool (operandsOf i).r) (by decide) hg
  have hop := toNat_or_field (k := 33) (opcodeOf i) (by decide) hr
  have hjo := toNat_or_field (k := 25) (operandsOf i).jo (by decide) hop
  have hws := toNat_or_field (k := 17) (operandsOf i).ws (by decide) hjo
  have hra := toNat_or_field (k := 9) (operandsOf i).ra (by decide) hws
  have hie := toNat_or_field (k := 8) (BitVec.ofBool (operandsOf i).ie) (by decide) hra
  have hrb := toNat_or_field (k := 0) (operandsOf i).rb (by decide) hie
  simp only [BitVec.toNat_ofBool, BitVec.shiftLeft_zero, ← bitAt_eq_setWidth] at hrb
  rw [encode, hrb, fieldSum]
  ring

/-! ### Decoding and encoding are inverse, up to bits 63..40 -/

/-- Fields of equal values are equal. -/
theorem fields_eq_of_toNat_eq {f f' : Fields} (hg : f.g.toNat = f'.g.toNat) (hr : f.r.toNat = f'.r.toNat)
    (hjo : f.jo.toNat = f'.jo.toNat) (hws : f.ws.toNat = f'.ws.toNat) (hra : f.ra.toNat = f'.ra.toNat)
    (hie : f.ie.toNat = f'.ie.toNat) (hrb : f.rb.toNat = f'.rb.toNat) : f = f' := by
  have hbit : Function.Injective Bool.toNat := Function.LeftInverse.injective Bool.ofNat_toNat
  cases f
  cases f'
  rw [Fields.mk.injEq]
  exact ⟨hbit hg, hbit hr, BitVec.eq_of_toNat_eq hjo, BitVec.eq_of_toNat_eq hws,
    BitVec.eq_of_toNat_eq hra, hbit hie, BitVec.eq_of_toNat_eq hrb⟩

/-- The digits of a value with the opcode `op` and the fields `f` are `op` and `f`: the fields do not overlap and fill
bits 39..0. -/
theorem fields_of_toNat_eq_fieldSum {w : Container} {op : BitVec 5} {f : Fields} (hw : w.toNat = fieldSum op f) :
    fieldOp w = op ∧ fieldsOf w = f := by
  have hgBit := f.g.toNat_le
  have hrBit := f.r.toNat_le
  have hieBit := f.ie.toNat_le
  rw [fieldSum] at hw
  refine ⟨BitVec.eq_of_toNat_eq ?_, fields_eq_of_toNat_eq ?_ ?_ ?_ ?_ ?_ ?_ ?_⟩
  · rw [fieldOp_toNat]; omega
  · rw [fieldsOf_g_toNat]; omega
  · rw [fieldsOf_r_toNat]; omega
  · rw [fieldsOf_jo_toNat]; omega
  · rw [fieldsOf_ws_toNat]; omega
  · rw [fieldsOf_ra_toNat]; omega
  · rw [fieldsOf_ie_toNat]; omega
  · rw [fieldsOf_rb_toNat]; omega

theorem fieldSum_decoded (w : Container) : fieldSum (fieldOp w) (fieldsOf w) = w.toNat % 2 ^ 40 := by
  rw [fieldSum, fieldsOf_g_toNat, fieldsOf_r_toNat, fieldOp_toNat, fieldsOf_jo_toNat, fieldsOf_ws_toNat,
    fieldsOf_ra_toNat, fieldsOf_ie_toNat, fieldsOf_rb_toNat]
  omega

@[simp] theorem fieldOp_encode (i : Instr) : fieldOp (encode i) = opcodeOf i :=
  (fields_of_toNat_eq_fieldSum (encode_toNat i)).1

@[simp] theorem fieldsOf_encode (i : Instr) : fieldsOf (encode i) = operandsOf i :=
  (fields_of_toNat_eq_fieldSum (encode_toNat i)).2

theorem decode_encode (i : Instr) : decode (encode i) = i := by
  rw [decode, fieldOp_encode, fieldsOf_encode, instrOf_opcodeOf_operandsOf]

/-- The mask of bits 39..0 is the remainder modulo `2 ^ 40`. -/
theorem toNat_and_fieldMask (w : Container) : (w &&& 0xFFFFFFFFFF#64).toNat = w.toNat % 2 ^ 40 :=
  Nat.and_two_pow_sub_one_eq_mod w.toNat 40

theorem encode_decode (w : Container) : encode (decode w) = w &&& 0xFFFFFFFFFF#64 := by
  apply BitVec.eq_of_toNat_eq
  rw [encode_toNat, opcodeOf_decode, operandsOf_decode, fieldSum_decoded, toNat_and_fieldMask]

/-! ### The mask of the opcode field (30_encoding.md R89) -/

theorem getLsbD_opcodeMask : ∀ k < 64, opcodeMask.getLsbD k = decide (33 ≤ k ∧ k < 38) := by
  decide

/-- The mask keeps exactly the opcode field, at its place. -/
theorem and_opcodeMask (w : Container) : w &&& opcodeMask = (fieldOp w).setWidth 64 <<< 33 := by
  refine BitVec.eq_of_getLsbD_eq fun k hk => ?_
  rw [BitVec.getLsbD_and, getLsbD_opcodeMask k hk]
  by_cases hlow : 33 ≤ k
  · have hplace : 33 + (k - 33) = k := by omega
    have hwidth : k - 33 < 5 ↔ k < 38 := by omega
    simp [fieldOp, hk, hlow, hplace, hwidth, Bool.and_comm]
  · simp [hlow, Nat.lt_of_not_le hlow]

/-- A word matches an opcode under the mask exactly if its opcode field holds it. -/
theorem and_opcodeMask_eq_iff (w : Container) (op : BitVec 5) :
    w &&& opcodeMask = BitVec.ofNat 64 (op.toNat * 2 ^ 33) ↔ fieldOp w = op := by
  have hplace (x : BitVec 5) : (x.setWidth 64 <<< 33).toNat = x.toNat * 2 ^ 33 :=
    toNat_setWidth_shiftLeft x (by decide)
  rw [and_opcodeMask, ← BitVec.toNat_inj, hplace, BitVec.toNat_ofNat, ← BitVec.toNat_inj]
  omega

end Sys2Proof

/-! The statements of 30_encoding.md about the decoder and the encoder. -/

namespace Sys2Proof.Proofs

open Sys2Proof.Statements

/-- Settles O1: both compositions and the encoder's sum, each from the arithmetic form of the encoding. -/
theorem decodeEncodeLossless : Obligations.DecodeEncodeLossless :=
  ⟨decode_encode, encode_decode, encode_toNat⟩

/-- Settles O2: decoding keeps the opcode field and the other fields, each of which is a digit of the word. -/
theorem decodeReadsEveryField : Obligations.DecodeReadsEveryField := by
  intro w
  rw [opcodeOf_decode, operandsOf_decode]
  exact ⟨fieldsOf_g_toNat w, fieldsOf_r_toNat w, fieldOp_toNat w, fieldsOf_jo_toNat w, fieldsOf_ws_toNat w,
    fieldsOf_ra_toNat w, fieldsOf_ie_toNat w, fieldsOf_rb_toNat w⟩

/-- Settles O3: the map's rows are the 32 values of the opcode field, and the mask reads that field. -/
theorem opcodeFieldSelectsInstruction : Obligations.OpcodeFieldSelectsInstruction := by
  refine ⟨fun p hp => ?_, fun w => ?_⟩
  · obtain ⟨op, rfl⟩ := mem_opcodeMap_iff.mp hp
    refine ⟨fun f => ?_, fun w hw => ⟨fieldsOf w, ?_⟩⟩
    · rw [and_opcodeMask_eq_iff, fieldOp_encode, opcodeOf_instrOf]
    · rw [decode, (and_opcodeMask_eq_iff w op).mp hw]
  · exact ⟨_, mem_opcodeMap_iff.mpr ⟨fieldOp w, rfl⟩, (and_opcodeMask_eq_iff w _).mpr rfl⟩

end Sys2Proof.Proofs

/-! SUPPORT. The spec's operands, next `pc` and register file against the machine's: what Operand Resolve, Write-Back
and Control-Flow leave, in the terms of the statements (41_operands.md, 44_writeback.md, 45_control_flow.md). -/

namespace Sys2Proof.Machine

open Sys2Proof.Statements

/-! ### Registers and operands -/

theorem reg_eq_readReg (s : State) (i : Fin 16) : reg s i = readReg s i := by
  simp [reg, readReg]

/-- The register a selector 1..16 names is the one the spec numbers (10_state.md R20). -/
theorem selectorIndex_eq_some {sel : Byte} (h : 1 ≤ sel.toNat ∧ sel.toNat ≤ 16) :
    selectorIndex sel = some ⟨sel.toNat - 1, by omega⟩ :=
  dif_pos h

theorem operandA_eq_specA (s : State) {f : Fields} (hra : f.ra.toNat ≤ 16) : operandA s f.ra = some (specA s f) := by
  obtain ⟨hzero, heq⟩ | ⟨i, hi, heq⟩ | ⟨hbig, -⟩ := operandA_cases s f.ra
  · rw [heq, specA, if_pos (by simp [hzero])]
  · simp [heq, specA, hi, reg_eq_readReg]
  · omega

theorem operandB_eq_specB (s : State) (f : Fields) : operandB s f.ie f.rb = specB s f := by
  unfold operandB specB
  split_ifs with hie hreg
  · exact (BitVec.ofNat_toNat 32 f.rb).symm
  · rw [selectorIndex_eq_some hreg]
    exact (reg_eq_readReg s _).symm
  · rw [selectorIndex, dif_neg hreg]

@[simp] theorem warnSelector_trace (s : State) (f : Fields) :
    (warnSelector s f.ie f.rb).trace = s.trace ++ specWarn f := by
  have hbound : 17 ≤ f.rb.toNat ↔ 16 < f.rb.toNat := Iff.rfl
  simp only [warnSelector, specWarn, hbound]
  split_ifs
  · exact record_trace s _
  · exact (List.append_nil _).symm

/-- Operand Resolve of every opcode but SCAN and RAM_READ, with operand A in range (41_operands.md R132). -/
theorem resolveGeneral_eq_go (s : State) {f : Fields} (hra : f.ra.toNat ≤ 16) :
    resolveGeneral s f = .go (record (warnSelector s f.ie f.rb) (.operandResolve (specA s f) (specB s f)))
      (specA s f, specB s f) := by
  rw [resolveGeneral, resolveA, operandA_eq_specA s hra, operandB_eq_specB]
  rfl

/-! ### Write-Back and Control-Flow -/

/-- Write-Back of a selector in range, outside RAM_WRITE: the register it names, that write's event, and nothing else
(44_writeback.md R200). -/
theorem writeBack_eq_go (s : State) {f : Fields} {c : Transient} (hws : f.ws.toNat ≤ 16) (hstore : c.memwrite = false) :
    ∃ regs, writeBack s f.ws c = .go { s with regs := regs, trace := s.trace ++ specWrite f c.output } ()
      ∧ RegsAfter s { s with regs := regs } f c.output := by
  obtain ⟨hzero, heq⟩ | ⟨-, htrue, -⟩ | ⟨i, -, hi, heq⟩ | ⟨-, hbig, -⟩ := writeBack_cases s f.ws c
  · exact ⟨s.regs, by rw [heq]; simp [specWrite, hzero], fun k _ => by simp [hzero, reg]⟩
  · simp [hstore] at htrue
  · refine ⟨s.regs.set i c.output, ?_, fun k hk => ?_⟩
    · rw [heq, specWrite, dif_pos (by omega)]
      simp [hi, record, writeReg]
    · have hnamed : k + 1 = f.ws.toNat ↔ (i : Nat) = k := by omega
      have hreg (t : State) : reg t k = t.regs[k] := reg_eq_readReg t ⟨k, hk⟩
      simp only [hreg, hnamed, Vector.getElem_set]
  · omega

theorem modeOfBit_eq_spaceOf (r : Bool) : modeOfBit r = spaceOf r := by
  cases r <;> rfl

/-- The source's decision procedure is the closed form of 45_control_flow.md R218. -/
theorem nextPc_eq_specPc (s : State) (f : Fields) (branch : Byte) (out : Word) :
    nextPc s.mode s.pc f.r f.g branch out = (specPc s f branch.toNat out, spaceOf f.r) := by
  have hbranch : branch.toNat = 0 ↔ branch = 0#8 := BitVec.toNat_inj (y := 0#8)
  simp only [nextPc, specPc, modeOfBit_eq_spaceOf, hbranch]
  by_cases hmode : s.mode = spaceOf f.r
  · by_cases hnone : branch = 0#8
    · simp [hmode, hnone]
    · simp [hmode, hnone, relativeTarget]
  · simp [hmode]

/-- The phases after Dispatch, with a selector in range and outside RAM_WRITE (40_cycle.md R112). -/
theorem finishCycle_eq_controlFlow (op : BitVec 5) (s : State) {f : Fields} {c : Transient} (hws : f.ws.toNat ≤ 16)
    (hstore : c.memwrite = false) :
    ∃ regs, finishCycle op f s c = controlFlow
        { s with regs := regs, trace := s.trace ++ [.dispatch op c.output c.branch] ++ specWrite f c.output } f c
      ∧ RegsAfter s { s with regs := regs } f c.output := by
  obtain ⟨regs, hgo, hregs⟩ := writeBack_eq_go (record s (.dispatch op c.output c.branch)) hws hstore
  exact ⟨regs, by rw [finishCycle, hgo]; rfl, hregs⟩

end Sys2Proof.Machine

/-! SUPPORT. A step that completes and stores nothing in memory, from the state in which Dispatch starts: one theorem
for every Dispatch of `DispatchSpec` but RAM_WRITE's, whatever the form of the operands. -/

namespace Sys2Proof.Machine

open Sys2Proof.Statements

/-- `u` is `s` but for the console channels, the SCAN wait and the trace: all that Operand Resolve, and Dispatch
outside RAM_WRITE, can touch. -/
structure SameStore (s u : State) : Prop where
  regs : u.regs = s.regs
  pc : u.pc = s.pc
  mode : u.mode = s.mode
  run : u.run = s.run
  rom : u.rom = s.rom
  mem : u.mem = s.mem

theorem SameStore.reg {s u : State} (h : SameStore s u) (k : Nat) : reg u k = reg s k := by
  rw [Statements.reg, Statements.reg, h.regs]

theorem SameStore.memRead {s u : State} (h : SameStore s u) (a : Byte) : memRead u a = memRead s a := by
  rw [Machine.memRead, Machine.memRead, h.mem]

theorem SameStore.specPc {s u : State} (h : SameStore s u) (f : Fields) (branch : Nat) (out : Word) :
    specPc u f branch out = specPc s f branch out := by
  rw [Statements.specPc, Statements.specPc, h.mode, h.pc]

/-- Dispatch outside RAM_WRITE keeps the store. -/
theorem DispatchSpec.sameStore {op : BitVec 5} {f : Fields} {d : State → Transient → State × Transient}
    {out : Word → Word → Word} {br : Word → Word → Byte} {errs : Word → Word → List Event}
    (hd : DispatchSpec op f d out br errs) (hop : op ≠ 16#5) {s u : State} (h : SameStore s u) (a b : Word) :
    SameStore s (d u (dispatchStart a b)).1 := by
  rw [hd.eq]
  exact ⟨h.regs, h.pc, h.mode, h.run, h.rom, by simp [hop, h.mem]⟩

/-- Write-Back and Control-Flow complete a step whose Dispatch left the store alone. -/
theorem registerStep_finishCycle {s u : State} {op : Nat} {f : Fields} {a b : Word} {c : Transient}
    {warns errs : List Event} (hws : f.ws.toNat ≤ 16) (hstore : c.memwrite = false) (hsame : SameStore s u)
    (htrace : u.trace = s.trace ++ warns ++ [.operandResolve a b] ++ errs) :
    RegisterStep s (finishCycle (BitVec.ofNat 5 op) f u c) op f a b c.output c.branch warns errs := by
  obtain ⟨regs, heq, hregs⟩ := finishCycle_eq_controlFlow (BitVec.ofNat 5 op) u hws hstore
  have hnext := nextPc_eq_specPc u f c.branch c.output
  rw [heq]
  refine ⟨⟨?_, ?_, hsame.run, hsame.rom⟩, fun k hk => ?_, hsame.memRead, ?_⟩
  · rw [controlFlow_pc, hnext, hsame.specPc]
  · rw [controlFlow_mode, hnext]
  · rw [← hsame.reg k]
    exact hregs k hk
  · rw [controlFlow_trace, htrace, ← controlFlow_mode, ← controlFlow_pc]

/-- Write-Back and Control-Flow leave the console and the SCAN wait as Dispatch did. -/
theorem consoleUntouched_finishCycle (op : BitVec 5) (u : State) {f : Fields} {c : Transient} (hws : f.ws.toNat ≤ 16)
    (hstore : c.memwrite = false) : ConsoleUntouched u (finishCycle op f u c) := by
  obtain ⟨regs, heq, -⟩ := finishCycle_eq_controlFlow op u hws hstore
  rw [heq]
  exact ⟨rfl, rfl, rfl⟩

/-- The step of any opcode but RAM_WRITE from where its operands are resolved. -/
theorem runCycle_registerStep {s u : State} {op : Nat} {f : Fields} {d : State → Transient → State × Transient}
    {out : Word → Word → Word} {br : Word → Word → Byte} {errs : Word → Word → List Event} {a b : Word}
    {warns : List Event} (hd : DispatchSpec (BitVec.ofNat 5 op) f d out br errs) (hop : BitVec.ofNat 5 op ≠ 16#5)
    (hws : f.ws.toNat ≤ 16) (hsame : SameStore s u) (htrace : u.trace = s.trace ++ warns ++ [.operandResolve a b]) :
    ∃ t, runCycle (BitVec.ofNat 5 op) f (.go u (a, b)) d = .next t
      ∧ RegisterStep s t op f a b (out a b) (br a b) warns (errs a b)
      ∧ ConsoleUntouched (d u (dispatchStart a b)).1 t := by
  have hstart := hd.eq u a b
  have hstore : (d u (dispatchStart a b)).2.memwrite = false := by simp [hstart, hop]
  have hstep := registerStep_finishCycle (op := op) (a := a) (b := b) (warns := warns) (errs := errs a b) hws hstore
    (hd.sameStore hop hsame a b) (by simp [hstart, htrace])
  refine ⟨_, rfl, ?_, consoleUntouched_finishCycle _ _ hws hstore⟩
  simpa only [hstart] using hstep

/-- `mk` is opcode `op`, with the operands of 41_operands.md R132 and the Dispatch `d`: what the row of an opcode in
42_alu.md says beside its value. -/
structure GeneralOpcode (mk : Fields → Instr) (op : Nat) (d : Fields → State → Transient → State × Transient) :
    Prop where
  lt : op < 32
  opcode : ∀ f, opcodeOf (mk f) = BitVec.ofNat 5 op
  exec : ∀ f s, exec (mk f) s = runCycle (BitVec.ofNat 5 op) f (resolveGeneral s f) (d f)

theorem GeneralOpcode.matchesOpcode {mk : Fields → Instr} {op : Nat}
    {d : Fields → State → Transient → State × Transient} (h : GeneralOpcode mk op d) : MatchesOpcode mk op := by
  intro f
  have hmask := (and_opcodeMask_eq_iff (encode (mk f)) (BitVec.ofNat 5 op)).mpr (by rw [fieldOp_encode, h.opcode])
  rwa [BitVec.toNat_ofNat, Nat.mod_eq_of_lt h.lt] at hmask

/-- The whole step of such an opcode that neither stores nor emits, with both register selectors in range. -/
theorem GeneralOpcode.registerStep {mk : Fields → Instr} {op : Nat}
    {d : Fields → State → Transient → State × Transient} (h : GeneralOpcode mk op d) {f : Fields}
    {out : Word → Word → Word} {br : Word → Word → Byte} {errs : Word → Word → List Event}
    (hd : DispatchSpec (BitVec.ofNat 5 op) f (d f) out br errs) (hstore : BitVec.ofNat 5 op ≠ 16#5)
    (hemit : BitVec.ofNat 5 op ≠ 18#5) (s : State) (hra : f.ra.toNat ≤ 16) (hws : f.ws.toNat ≤ 16) :
    ∃ t, Machine.exec (mk f) s = .next t
      ∧ RegisterStep s t op f (specA s f) (specB s f) (out (specA s f) (specB s f)) (br (specA s f) (specB s f))
          (specWarn f) (errs (specA s f) (specB s f))
      ∧ ConsoleUntouched s t := by
  obtain ⟨t, hnext, hstep, hconsole⟩ := runCycle_registerStep (s := s)
    (u := record (warnSelector s f.ie f.rb) (.operandResolve (specA s f) (specB s f)))
    (a := specA s f) (b := specB s f) (warns := specWarn f) hd hstore hws
    (by constructor <;> simp) (by simp)
  refine ⟨t, by rw [h.exec, resolveGeneral_eq_go s hra, hnext], hstep, ?_⟩
  rw [hd.eq] at hconsole
  exact ⟨by simp [hconsole.input], by simp [hconsole.output, hstore, hemit], by simp [hconsole.scanWait]⟩

end Sys2Proof.Machine

/-! SUPPORT. The opcodes of 42_alu.md: an opcode whose Dispatch gives the value of a formula over the integers computes
that formula. -/

namespace Sys2Proof.Machine

open Sys2Proof.Statements

/-- An opcode that neither stores nor emits, whose Dispatch yields `value` modulo `2 ^ 32`, the error events `errs` and no
branch. -/
theorem GeneralOpcode.computes {mk : Fields → Instr} {op : Nat}
    {d : Fields → State → Transient → State × Transient} (h : GeneralOpcode mk op d) {out : Word → Word → Word}
    {errors : Word → Word → List Event} {value : Nat → Nat → Int} {errs : Nat → List Event}
    (hd : ∀ f, DispatchSpec (BitVec.ofNat 5 op) f (d f) out (fun _ _ => 0#8) errors)
    (hstore : BitVec.ofNat 5 op ≠ 16#5) (hemit : BitVec.ofNat 5 op ≠ 18#5)
    (hvalue : ∀ a b, out a b = BitVec.ofInt 32 (value a.toNat b.toNat))
    (herrs : ∀ a b, errors a b = errs b.toNat) : Computes mk op value errs := by
  refine ⟨h.matchesOpcode, fun f s hra hws => ?_⟩
  obtain ⟨t, hnext, hstep, hconsole⟩ := h.registerStep (hd f) hstore hemit s hra hws
  rw [hvalue, herrs] at hstep
  exact ⟨t, hnext, hstep, hconsole⟩

/-- An opcode that leaves the default sum (42_alu.md R150). -/
theorem GeneralOpcode.computes_sum {mk : Fields → Instr} {op : Nat}
    (h : GeneralOpcode mk op fun _ => dispatchDefault) (hstore : BitVec.ofNat 5 op ≠ 16#5)
    (hemit : BitVec.ofNat 5 op ≠ 18#5) : Computes mk op (fun a b => a + b) fun _ => [] :=
  h.computes (fun f => dispatchDefault_spec _ f hstore hemit) hstore hemit
    (fun a b => by rw [BitVec.ofInt_add]; simp) fun _ _ => rfl

/-- An opcode that replaces the default sum by another value of its operands. -/
theorem GeneralOpcode.computes_value {mk : Fields → Instr} {op : Nat} {result : Word → Word → Word}
    {value : Nat → Nat → Int} (h : GeneralOpcode mk op fun _ => dispatchValue result)
    (hstore : BitVec.ofNat 5 op ≠ 16#5) (hemit : BitVec.ofNat 5 op ≠ 18#5)
    (hvalue : ∀ a b, result a b = BitVec.ofInt 32 (value a.toNat b.toNat)) : Computes mk op value fun _ => [] :=
  h.computes (fun f => dispatchValue_spec _ f result hstore hemit) hstore hemit hvalue fun _ _ => rfl

/-- Subtraction modulo `2 ^ 32` is the integer difference, wrapped. -/
theorem sub_eq_ofInt (a b : Word) : a - b = BitVec.ofInt 32 ((a.toNat : Int) - b.toNat) := by
  rw [Int.sub_eq_add_neg, BitVec.ofInt_add, BitVec.ofInt_neg, BitVec.sub_eq_add_neg]
  simp

/-- A word is the wrapped integer of its own number. -/
theorem eq_ofInt_of_toNat_eq {v : Word} {n : Nat} (h : v.toNat = n) : v = BitVec.ofInt 32 n := by
  rw [← h, BitVec.ofInt_natCast, BitVec.ofNat_toNat, BitVec.setWidth_eq]

/-- DIV's value as a number: the quotient, or 256 for the divisor 0 (42_alu.md R154). -/
theorem quotient_eq_ofInt (a b : Word) : (if b = 0#32 then 256#32 else a / b)
    = BitVec.ofInt 32 (if b.toNat = 0 then 256 else (a.toNat / b.toNat : Nat)) := by
  have hzero : b.toNat = 0 ↔ b = 0#32 := BitVec.toNat_inj (y := 0#32)
  by_cases hb : b = 0#32
  · simp [hb]
  · rw [if_neg hb, if_neg (mt hzero.mp hb)]
    exact eq_ofInt_of_toNat_eq BitVec.toNat_udiv

end Sys2Proof.Machine

/-! The statements of 42_alu.md about the unshifted opcodes. -/

namespace Sys2Proof.Proofs

open Sys2Proof.Statements Sys2Proof.Machine

/-- Settles O16: ADD and OP19 to OP31 have one meaning, the default sum. -/
theorem defaultSumOpcodes : Obligations.DefaultSumOpcodes := by
  refine ⟨?_, ?_, ?_, ?_, ?_, ?_, ?_, ?_, ?_, ?_, ?_, ?_, ?_, ?_⟩
  all_goals
    exact GeneralOpcode.computes_sum ⟨by decide, fun _ => rfl, fun _ _ => rfl⟩ (by decide) (by decide)

/-- Settles O17: the integer difference and product, each wrapped. -/
theorem subtractAndMultiply : Obligations.SubtractAndMultiply := by
  constructor
  · exact GeneralOpcode.computes_value ⟨by decide, fun _ => rfl, fun _ _ => rfl⟩ (by decide) (by decide) sub_eq_ofInt
  · refine GeneralOpcode.computes_value (result := fun a b => a * b) ⟨by decide, fun _ => rfl, fun _ _ => rfl⟩
      (by decide) (by decide) fun a b => ?_
    rw [BitVec.ofInt_mul]
    simp

/-- Settles O18: both cases of the divisor, the value and the error event together. -/
theorem divideOrSentinel : Obligations.DivideOrSentinel := by
  refine GeneralOpcode.computes (d := fun _ => dispatchDiv) ⟨by decide, fun _ => rfl, fun _ _ => rfl⟩ dispatchDiv_spec
    (by decide) (by decide) quotient_eq_ofInt fun _ b => ?_
  simp [← BitVec.toNat_inj]

/-- Settles O19: the bits of the result are those of the operands' numbers. -/
theorem bitwiseOpcodes : Obligations.BitwiseOpcodes := by
  refine ⟨?_, ?_, ?_⟩
  · exact GeneralOpcode.computes_value (result := fun a b => a ||| b) ⟨by decide, fun _ => rfl, fun _ _ => rfl⟩
      (by decide) (by decide) fun a b => eq_ofInt_of_toNat_eq (BitVec.toNat_or a b)
  · exact GeneralOpcode.computes_value (result := fun a b => a &&& b) ⟨by decide, fun _ => rfl, fun _ _ => rfl⟩
      (by decide) (by decide) fun a b => eq_ofInt_of_toNat_eq (BitVec.toNat_and a b)
  · exact GeneralOpcode.computes_value (result := fun a b => a ^^^ b) ⟨by decide, fun _ => rfl, fun _ _ => rfl⟩
      (by decide) (by decide) fun a b => eq_ofInt_of_toNat_eq (BitVec.toNat_xor a b)

end Sys2Proof.Proofs

/-! SUPPORT. What a general opcode does to the console beside its register step: OUTPUT alone emits (43_memory_io.md R185;
60_exceptions.md R257). -/

namespace Sys2Proof.Machine

open Sys2Proof.Statements

/-- `GeneralOpcode.registerStep` with OUTPUT among the opcodes: the console follows Dispatch, which emits the value that
Write-Back commits. -/
theorem GeneralOpcode.registerStep_emitting {mk : Fields → Instr} {op : Nat}
    {d : Fields → State → Transient → State × Transient} (h : GeneralOpcode mk op d) {f : Fields}
    {out : Word → Word → Word} {br : Word → Word → Byte} {errs : Word → Word → List Event}
    (hd : DispatchSpec (BitVec.ofNat 5 op) f (d f) out br errs) (hstore : BitVec.ofNat 5 op ≠ 16#5) (s : State)
    (hra : f.ra.toNat ≤ 16) (hws : f.ws.toNat ≤ 16) :
    ∃ t, Machine.exec (mk f) s = .next t
      ∧ RegisterStep s t op f (specA s f) (specB s f) (out (specA s f) (specB s f)) (br (specA s f) (specB s f))
          (specWarn f) (errs (specA s f) (specB s f))
      ∧ t.output = s.output ++ (if BitVec.ofNat 5 op = 18#5 then [out (specA s f) (specB s f)] else [])
      ∧ t.input = s.input ∧ t.scanWait = s.scanWait := by
  have hsame : SameStore s (record (warnSelector s f.ie f.rb) (.operandResolve (specA s f) (specB s f))) := by
    constructor <;> simp
  obtain ⟨t, hnext, hstep, hconsole⟩ := runCycle_registerStep (a := specA s f) (b := specB s f) (warns := specWarn f)
    hd hstore hws hsame (by simp)
  rw [hd.eq] at hconsole
  exact ⟨t, by rw [h.exec, resolveGeneral_eq_go s hra, hnext], hstep, by simp [hconsole.output, hstore],
    by simp [hconsole.input], by simp [hconsole.scanWait]⟩

end Sys2Proof.Machine

/-! The statement of 43_memory_io.md about OUTPUT. -/

namespace Sys2Proof.Proofs

open Sys2Proof.Statements Sys2Proof.Machine

/-- Settles O25: OUTPUT's Dispatch leaves the default sum and emits it, and the rest of the step is that of any general
opcode. -/
theorem outputEmitsSum : Obligations.OutputEmitsSum := by
  have hopcode : GeneralOpcode .output 18 fun _ => dispatchOutput := ⟨by decide, fun _ => rfl, fun _ _ => rfl⟩
  refine ⟨hopcode.matchesOpcode, fun f s hra hws => ?_⟩
  obtain ⟨t, hnext, hstep, hconsole⟩ :=
    hopcode.registerStep_emitting (dispatchOutput_spec f) (by decide) s hra hws
  exact ⟨t, specA s f + specB s f, hnext, BitVec.add_def .., hstep, hconsole⟩

end Sys2Proof.Proofs

/-! SUPPORT. Every instruction's step up to Dispatch, with operand A in range and SCAN's token at hand: it completes in
`finishCycle`, from a state that differs from the first in no register (40_cycle.md R111, R112). -/

namespace Sys2Proof.Machine

open Sys2Proof.Statements

/-! ### Operand Resolve -/

/-- The warning of an integer token outside SCAN's range adds to the trace at most (60_exceptions.md R244). -/
theorem trace_prefix_warnScan (s : State) (n : Int) : s.trace <+: (warnScan s n).trace := by
  unfold warnScan
  split_ifs
  · exact List.prefix_rfl
  · exact List.prefix_append _ _

/-- Operand Resolve of RAM_READ, with operand A in range (41_operands.md R134). -/
theorem resolveMem_eq_go (s : State) {f : Fields} (hra : f.ra.toNat ≤ 16) :
    resolveMem s f = .go (record s (.operandResolve (specA s f) (operandMem s f.rb)))
      (specA s f, operandMem s f.rb) := by
  rw [resolveMem, resolveA, operandA_eq_specA s hra]
  rfl

/-- Operand Resolve of SCAN, with operand A in range and an integer token at the head of the input
(43_memory_io.md R180, R181). -/
theorem resolveScan_eq_go {s : State} {f : Fields} {n : Int} {rest : List Token} (hra : f.ra.toNat ≤ 16)
    (hinput : s.input = .integer n :: rest) :
    resolveScan s f = .go (record (warnScan (takeToken s rest) n) (.operandResolve (specA s f) (scanValue n)))
      (specA s f, scanValue n) := by
  simp only [resolveScan, resolveA, operandA_eq_specA s hra, hinput]
  rfl

/-- Whatever the opcode, Operand Resolve completes, leaves the store alone and only adds to the trace. -/
theorem resolveOf_eq_go {i : Instr} {s : State} (hra : (operandsOf i).ra.toNat ≤ 16) (htoken : TokenReady i s) :
    ∃ u a b, resolveOf i s = .go u (a, b) ∧ SameStore s u ∧ s.trace <+: u.trace := by
  unfold resolveOf
  split_ifs with hscan hread
  · obtain ⟨n, rest, hinput⟩ := htoken hscan
    refine ⟨_, _, _, resolveScan_eq_go hra hinput, by constructor <;> simp, ?_⟩
    exact (trace_prefix_warnScan (takeToken s rest) n).trans (List.prefix_append _ _)
  · exact ⟨_, _, _, resolveMem_eq_go s hra, by constructor <;> simp, List.prefix_append _ _⟩
  · exact ⟨_, _, _, resolveGeneral_eq_go s hra, by constructor <;> simp, by simp⟩

/-! ### Dispatch -/

/-- What Write-Back starts from: registers as at the start of the step, a trace that only grew, and `memwrite` set in a
RAM_WRITE cycle alone. -/
theorem exec_eq_finishCycle {i : Instr} {s : State} (hra : (operandsOf i).ra.toNat ≤ 16) (htoken : TokenReady i s) :
    ∃ u c, exec i s = .next (finishCycle (opcodeOf i) (operandsOf i) u c) ∧ u.regs = s.regs ∧ s.trace <+: u.trace
      ∧ c.memwrite = decide (opcodeOf i = 16#5) := by
  obtain ⟨u, a, b, hgo, hsame, htrace⟩ := resolveOf_eq_go hra htoken
  obtain ⟨d, out, br, errs, hd, hexec⟩ := exec_eq_runCycle i
  have hdispatch := hd.eq u a b
  refine ⟨(d u (dispatchStart a b)).1, (d u (dispatchStart a b)).2, by rw [hexec, hgo]; rfl, ?_, ?_, ?_⟩
  · simp [hdispatch, hsame.regs]
  · simpa [hdispatch] using htrace.trans (List.prefix_append _ _)
  · rw [hdispatch]

end Sys2Proof.Machine

/-! SUPPORT. What Write-Back leaves of the registers, the run state and the trace, one lemma per case of the rule
(44_writeback.md R200, R201). -/

namespace Sys2Proof.Machine

open Sys2Proof.Statements

/-- Write-Back adds its event to the trace or nothing. -/
theorem trace_prefix_writeBack (s : State) (ws : Byte) (c : Transient) :
    s.trace <+: (writeBack s ws c).state.trace := by
  obtain ⟨-, heq⟩ | ⟨-, -, heq⟩ | ⟨i, -, -, heq⟩ | ⟨-, -, heq⟩ := writeBack_cases s ws c
  all_goals simp [heq]

/-- The dispatch event stands before whatever Write-Back and Control-Flow record, a fault of `ws` included
(60_exceptions.md R262). -/
theorem trace_prefix_finishCycle (op : BitVec 5) (f : Fields) (u : State) (c : Transient) :
    u.trace ++ [.dispatch op c.output c.branch] <+: (finishCycle op f u c).trace := by
  have hwb := trace_prefix_writeBack (record u (.dispatch op c.output c.branch)) f.ws c
  obtain ⟨v, hgo, heq⟩ | ⟨v, hended, heq⟩ := finishCycle_cases op f u c
  · rw [hgo] at hwb
    exact heq ▸ hwb.trans (List.prefix_append _ _)
  · rwa [hended, ← heq] at hwb

/-- A step whose phases before Write-Back only added to the trace has its dispatch event among the new ones. -/
theorem dispatch_mem_newEvents {s u : State} (htrace : s.trace <+: u.trace) (op : BitVec 5) (f : Fields)
    (c : Transient) : .dispatch op c.output c.branch ∈ newEvents s (finishCycle op f u c) := by
  obtain ⟨before, hbefore⟩ := htrace
  obtain ⟨rest, hrest⟩ := trace_prefix_finishCycle op f u c
  rw [newEvents, ← hrest, ← hbefore]
  simp

/-- In a RAM_WRITE cycle no register is written. -/
theorem finishCycle_regs_of_memwrite (op : BitVec 5) (f : Fields) (u : State) {c : Transient}
    (hstore : c.memwrite = true) : (finishCycle op f u c).regs = u.regs := by
  obtain ⟨-, heq⟩ | ⟨-, -, heq⟩ | ⟨i, hfalse, -, -⟩ | ⟨hfalse, -, -⟩ :=
    writeBack_cases (record u (.dispatch op c.output c.branch)) f.ws c
  · simp [finishCycle, heq]
  · simp [finishCycle, heq]
  · simp [hstore] at hfalse
  · simp [hstore] at hfalse

/-- Outside RAM_WRITE a selector in range names the one register that becomes `output`. -/
theorem regsAfter_finishCycle (op : BitVec 5) {s u : State} {f : Fields} {c : Transient} (hregs : u.regs = s.regs)
    (hws : f.ws.toNat ≤ 16) (hstore : c.memwrite = false) : RegsAfter s (finishCycle op f u c) f c.output := by
  obtain ⟨regs, heq, hafter⟩ := finishCycle_eq_controlFlow op u hws hstore
  intro k hk
  have hreg : reg u k = reg s k := by rw [reg, reg, hregs]
  rw [heq, ← hreg]
  exact hafter k hk

/-- Outside RAM_WRITE a selector above 16 ends the step in its fault (44_writeback.md R201, 60_exceptions.md R246). -/
theorem finishCycle_run_of_selector_out_of_range (op : BitVec 5) (u : State) {f : Fields} {c : Transient}
    (hws : 17 ≤ f.ws.toNat) (hstore : c.memwrite = false) :
    (finishCycle op f u c).run = .faulted (.writeSelectorOutOfRange f.ws) := by
  obtain ⟨hzero, -⟩ | ⟨-, htrue, -⟩ | ⟨i, -, hi, -⟩ | ⟨-, -, heq⟩ :=
    writeBack_cases (record u (.dispatch op c.output c.branch)) f.ws c
  · simp [hzero] at hws
  · simp [hstore] at htrue
  · omega
  · simp [finishCycle, heq]

end Sys2Proof.Machine

/-! The statement of 44_writeback.md R200. -/

namespace Sys2Proof.Proofs

open Sys2Proof.Statements Sys2Proof.Machine

/-- Settles O30: the step reaches Write-Back with the registers of its start, and `memwrite` tells the cases apart. -/
theorem writeBackCommitsOutput : Obligations.WriteBackCommitsOutput := by
  intro i s hra htoken
  obtain ⟨u, c, hexec, hregs, htrace, hstore⟩ := exec_eq_finishCycle hra htoken
  refine ⟨_, c.output, c.branch, hexec, dispatch_mem_newEvents htrace _ _ c, fun hop => ?_, fun hop hws => ?_,
    fun hop hws => ?_⟩
  · rw [finishCycle_regs_of_memwrite _ _ u (by simp [hstore, hop]), hregs]
  · exact regsAfter_finishCycle _ hregs hws (by simp [hstore, hop])
  · exact finishCycle_run_of_selector_out_of_range _ u hws (by simp [hstore, hop])

end Sys2Proof.Proofs

/-! SUPPORT. What every completing step does to the program counter, the mode and the trace, whatever the opcode: one
dispatch event, and the next fetch target that its `output` and `branch` decide (45_control_flow.md R217, R218). -/

namespace Sys2Proof.Machine

open Sys2Proof.Statements

/-! ### The dispatch events of a trace -/

/-- The event is the one Dispatch ends with (60_exceptions.md R262). -/
def Event.isDispatch : Event → Bool
  | .dispatch _ _ _ => true
  | _ => false

/-- The dispatch events a core has recorded, oldest first: one for each step that got past Dispatch. -/
def dispatchEvents (s : State) : List Event := s.trace.filter Event.isDispatch

@[simp] theorem dispatchEvents_record_dispatch (s : State) (op : BitVec 5) (out : Word) (branch : Byte) :
    dispatchEvents (record s (.dispatch op out branch)) = dispatchEvents s ++ [.dispatch op out branch] := by
  simp [dispatchEvents, Event.isDispatch]

theorem dispatchEvents_record_other (s : State) {e : Event} (he : e.isDispatch = false) :
    dispatchEvents (record s e) = dispatchEvents s := by
  simp [dispatchEvents, he]

@[simp] theorem dispatchEvents_warnSelector (s : State) (ie : Bool) (rb : Byte) :
    dispatchEvents (warnSelector s ie rb) = dispatchEvents s := by
  unfold warnSelector
  split_ifs
  · exact dispatchEvents_record_other s rfl
  · rfl

@[simp] theorem dispatchEvents_warnScan (s : State) (n : Int) : dispatchEvents (warnScan s n) = dispatchEvents s := by
  unfold warnScan
  split_ifs
  · rfl
  · exact dispatchEvents_record_other s rfl

/-- A step that only added to the trace, one dispatch event among it, dispatched that and nothing else. -/
theorem dispatched_iff_of_dispatchEvents {i : Instr} {s t : State} {out : Word} {branch : Byte}
    (htrace : s.trace <+: t.trace)
    (hevents : dispatchEvents t = dispatchEvents s ++ [.dispatch (opcodeOf i) out branch]) (out' : Word)
    (branch' : Byte) : Dispatched i s t out' branch' ↔ out' = out ∧ branch' = branch := by
  obtain ⟨added, hadded⟩ := htrace
  have honly : added.filter Event.isDispatch = [.dispatch (opcodeOf i) out branch] := by
    rw [dispatchEvents, ← hadded, List.filter_append] at hevents
    exact List.append_cancel_left hevents
  have hmem : .dispatch (opcodeOf i) out' branch' ∈ added
      ↔ .dispatch (opcodeOf i) out' branch' ∈ added.filter Event.isDispatch := by
    simp [Event.isDispatch]
  rw [Dispatched, newEvents, ← hadded, List.drop_left, hmem, honly]
  simp

/-! ### The phases of a completing step -/

/-- `u` has the program counter, the mode, the run state and the program table of `s`: all that Control-Flow and the
next fetch in ROM space read, and that no phase before Control-Flow touches. -/
structure SameControl (s u : State) : Prop where
  pc : u.pc = s.pc
  mode : u.mode = s.mode
  run : u.run = s.run
  rom : u.rom = s.rom

theorem SameControl.trans {s u v : State} (h : SameControl s u) (h' : SameControl u v) : SameControl s v :=
  ⟨h'.pc.trans h.pc, h'.mode.trans h.mode, h'.run.trans h.run, h'.rom.trans h.rom⟩

theorem SameStore.sameControl {s u : State} (h : SameStore s u) : SameControl s u := ⟨h.pc, h.mode, h.run, h.rom⟩

/-- Operand Resolve of a completing step records no dispatch event. -/
theorem dispatchEvents_of_resolveOf_eq_go {i : Instr} {s u : State} {operands : Word × Word}
    (hra : (operandsOf i).ra.toNat ≤ 16) (htoken : TokenReady i s) (hgo : resolveOf i s = .go u operands) :
    dispatchEvents u = dispatchEvents s := by
  unfold resolveOf at hgo
  split_ifs at hgo with hscan hread
  · obtain ⟨n, rest, hinput⟩ := htoken hscan
    rw [resolveScan_eq_go hra hinput] at hgo
    obtain ⟨rfl, -⟩ := Phase.go.inj hgo
    rw [dispatchEvents_record_other _ rfl, dispatchEvents_warnScan]
    rfl
  · rw [resolveMem_eq_go s hra] at hgo
    obtain ⟨rfl, -⟩ := Phase.go.inj hgo
    exact dispatchEvents_record_other s rfl
  · rw [resolveGeneral_eq_go s hra] at hgo
    obtain ⟨rfl, -⟩ := Phase.go.inj hgo
    rw [dispatchEvents_record_other _ rfl, dispatchEvents_warnSelector]

/-- A Dispatch records at most its error event; the dispatch event itself comes after it (60_exceptions.md R262). -/
theorem DispatchSpec.dispatchEvents {op : BitVec 5} {f : Fields} {d : State → Transient → State × Transient}
    {out : Word → Word → Word} {br : Word → Word → Byte} {errs : Word → Word → List Event}
    (hd : DispatchSpec op f d out br errs) (s : State) (a b : Word) :
    dispatchEvents (d s (dispatchStart a b)).1 = Machine.dispatchEvents s := by
  rw [hd.eq]
  obtain hnone | ⟨hdivide, -, -⟩ := hd.errors a b
  · simp [Machine.dispatchEvents, hnone]
  · simp [Machine.dispatchEvents, hdivide, Event.isDispatch]

theorem DispatchSpec.sameControl {op : BitVec 5} {f : Fields} {d : State → Transient → State × Transient}
    {out : Word → Word → Word} {br : Word → Word → Byte} {errs : Word → Word → List Event}
    (hd : DispatchSpec op f d out br errs) (s : State) (a b : Word) : SameControl s (d s (dispatchStart a b)).1 := by
  rw [hd.eq]
  exact ⟨rfl, rfl, rfl, rfl⟩

/-- Write-Back without its fault hands Control-Flow what it got, and records no dispatch event. -/
theorem writeBack_completes (s : State) {ws : Byte} {c : Transient} (hws : c.memwrite = true ∨ ws.toNat ≤ 16) :
    ∃ v, writeBack s ws c = .go v () ∧ SameControl s v ∧ dispatchEvents v = dispatchEvents s := by
  obtain ⟨-, heq⟩ | ⟨-, -, heq⟩ | ⟨i, -, -, heq⟩ | ⟨hfalse, hbig, -⟩ := writeBack_cases s ws c
  · exact ⟨_, heq, ⟨rfl, rfl, rfl, rfl⟩, rfl⟩
  · exact ⟨_, heq, ⟨rfl, rfl, rfl, rfl⟩, dispatchEvents_record_other _ rfl⟩
  · exact ⟨_, heq, ⟨rfl, rfl, rfl, rfl⟩, dispatchEvents_record_other _ rfl⟩
  · obtain htrue | hsmall := hws
    · simp [hfalse] at htrue
    · omega

/-- Control-Flow is the closed form of 45_control_flow.md R218. -/
theorem controlFlow_advanced {s v : State} (hsame : SameControl s v) (f : Fields) (c : Transient) :
    Advanced s (controlFlow v f c) f c.output c.branch.toNat := by
  have hnext := nextPc_eq_specPc s f c.branch c.output
  refine ⟨?_, ?_, hsame.run, hsame.rom⟩
  · rw [controlFlow_pc, hsame.mode, hsame.pc, hnext]
  · rw [controlFlow_mode, hsame.mode, hsame.pc, hnext]

/-- The phases after Dispatch, where Write-Back has no fault: control flow goes by the cycle's `output` and `branch`,
which the one dispatch event reports. -/
theorem finishCycle_advanced (op : BitVec 5) {s u : State} {f : Fields} {c : Transient} (hsame : SameControl s u)
    (hws : c.memwrite = true ∨ f.ws.toNat ≤ 16) :
    Advanced s (finishCycle op f u c) f c.output c.branch.toNat
      ∧ dispatchEvents (finishCycle op f u c) = dispatchEvents u ++ [.dispatch op c.output c.branch] := by
  obtain ⟨v, hgo, hcontrol, hevents⟩ := writeBack_completes (record u (.dispatch op c.output c.branch)) hws
  have hrecord : SameControl u (record u (.dispatch op c.output c.branch)) := ⟨rfl, rfl, rfl, rfl⟩
  rw [finishCycle, hgo]
  refine ⟨controlFlow_advanced (hsame.trans (hrecord.trans hcontrol)) f c, ?_⟩
  rw [← dispatchEvents_record_dispatch, ← hevents]
  exact dispatchEvents_record_other _ rfl

/-! ### The whole step -/

/-- RAM_WRITE takes every write selector, the others one up to 16 (30_encoding.md R86). -/
theorem writeDefined_iff (i : Instr) :
    i.writeDefined = true ↔ opcodeOf i = 16#5 ∨ (operandsOf i).ws.toNat ≤ 16 := by
  cases i
  all_goals simp [Instr.writeDefined, opcodeOf]

/-- What a step needs to complete, phase by phase: operand A, the write selector, and SCAN's token. -/
theorem canComplete_iff (i : Instr) (s : State) : CanComplete i s ↔
    (operandsOf i).ra.toNat ≤ 16 ∧ (opcodeOf i = 16#5 ∨ (operandsOf i).ws.toNat ≤ 16) ∧ TokenReady i s := by
  simp [CanComplete, Instr.WellFormed, Instr.readADefined, writeDefined_iff, and_assoc]

/-- The step of `i` from `s` completed in `t` with this `output` and `branch`, which its one dispatch event reports; only
the comparisons branch, and only by their own offset. -/
structure CompletedStep (i : Instr) (s t : State) (out : Word) (branch : Byte) : Prop where
  advanced : Advanced s t (operandsOf i) out branch.toNat
  dispatched_iff : ∀ out' branch', Dispatched i s t out' branch' ↔ out' = out ∧ branch' = branch
  branch_eq : branch = 0#8 ∨ (9 ≤ (opcodeOf i).toNat ∧ (opcodeOf i).toNat ≤ 14 ∧ branch = (operandsOf i).jo)

theorem CompletedStep.dispatched {i : Instr} {s t : State} {out : Word} {branch : Byte}
    (h : CompletedStep i s t out branch) : Dispatched i s t out branch :=
  (h.dispatched_iff out branch).mpr ⟨rfl, rfl⟩

/-- Every instruction that can complete does, whatever its opcode. -/
theorem exec_completedStep {i : Instr} {s : State} (hcan : CanComplete i s) :
    ∃ t out branch, exec i s = .next t ∧ CompletedStep i s t out branch := by
  obtain ⟨hra, hselector, htoken⟩ := (canComplete_iff i s).mp hcan
  obtain ⟨u, a, b, hgo, hsame, htrace⟩ := resolveOf_eq_go hra htoken
  obtain ⟨d, out, br, errs, hd, hexec⟩ := exec_eq_runCycle i
  have hresolve := dispatchEvents_of_resolveOf_eq_go hra htoken hgo
  have hcycle := hd.eq u a b
  have hcontrol := hsame.sameControl.trans (hd.sameControl u a b)
  have hws : (d u (dispatchStart a b)).2.memwrite = true ∨ (operandsOf i).ws.toNat ≤ 16 := by
    simpa [hcycle] using hselector
  obtain ⟨hadvanced, hevents⟩ := finishCycle_advanced (opcodeOf i) hcontrol hws
  have hgrown : s.trace <+: (finishCycle (opcodeOf i) (operandsOf i) (d u (dispatchStart a b)).1
      (d u (dispatchStart a b)).2).trace := by
    have hdispatch : u.trace <+: (d u (dispatchStart a b)).1.trace := by simp [hcycle]
    exact htrace.trans (hdispatch.trans ((List.prefix_append _ _).trans (trace_prefix_finishCycle _ _ _ _)))
  rw [hd.dispatchEvents, hresolve] at hevents
  refine ⟨_, _, _, by rw [hexec, hgo]; rfl, hadvanced, dispatched_iff_of_dispatchEvents hgrown hevents, ?_⟩
  simpa [hcycle] using hd.branch a b

end Sys2Proof.Machine

/-! SUPPORT. The comparisons' steps, the cases of the next `pc`, and the fetch that follows. -/

namespace Sys2Proof.Machine

open Sys2Proof.Statements

/-! ### The comparisons -/

/-- An opcode of 9 to 14 whose Dispatch compares by `cond`, which is the relation `rel` of the operands' numbers. -/
theorem GeneralOpcode.compares {mk : Fields → Instr} {op : Nat} {cond : Word → Word → Bool} {rel : Nat → Nat → Bool}
    (h : GeneralOpcode mk op fun f => dispatchCompare cond f.jo) (hge : 9 ≤ (BitVec.ofNat 5 op).toNat)
    (hle : (BitVec.ofNat 5 op).toNat ≤ 14) (hcond : ∀ a b, cond a b = rel a.toNat b.toNat) : Compares mk op rel := by
  have hstore : BitVec.ofNat 5 op ≠ 16#5 := fun heq => by simp [heq] at hle
  have hemit : BitVec.ofNat 5 op ≠ 18#5 := fun heq => by simp [heq] at hle
  refine ⟨h.matchesOpcode, fun f s hra hws => ?_⟩
  obtain ⟨t, hnext, hstep, hconsole⟩ :=
    h.registerStep (dispatchCompare_spec _ f cond hge hle) hstore hemit s hra hws
  rw [hcond, BitVec.add_def] at hstep
  exact ⟨t, hnext, hstep, hconsole⟩

/-! ### The next program counter -/

/-- Where the bit names another space, the target is `output` (45_control_flow.md R222). -/
theorem specPc_of_space_switch {s : State} {f : Fields} (hswitch : s.mode ≠ spaceOf f.r) (branch : Nat) (out : Word) :
    specPc s f branch out = out :=
  if_pos hswitch

/-- A taken branch with `r = g = 0` in ROM mode is relative and wraps modulo 256 (45_control_flow.md R221). -/
theorem specPc_of_relative {s : State} {f : Fields} {branch : Nat} (hmode : s.mode = .rom) (hr : f.r = false)
    (hg : f.g = false) (hbranch : branch ≠ 0) (out : Word) :
    specPc s f branch out = BitVec.ofNat 32 ((s.pc.toNat + branch) % 256) := by
  simp [specPc, spaceOf, hmode, hr, hg, hbranch]

/-- No other step is relative. -/
theorem specPc_of_not_relative {s : State} {f : Fields} {branch : Nat}
    (h : ¬(s.mode = .rom ∧ f.r = false ∧ f.g = false ∧ branch ≠ 0)) (out : Word) :
    specPc s f branch out = s.pc + 1#32 ∨ specPc s f branch out = out := by
  unfold specPc
  split_ifs with hswitch hbranch habsolute
  · exact .inr rfl
  · exact .inl rfl
  · exact .inr rfl
  · obtain ⟨hr, hg⟩ : f.r = false ∧ f.g = false := by simpa using habsolute
    exact absurd ⟨by simpa [hr, spaceOf] using hswitch, hr, hg, hbranch⟩ h

/-! ### The fetch that follows -/

/-- A fetch in RAM space reads the slot at `pc`, up to its last one (20_memory.md R57). -/
theorem fetchWord_ram {s : State} (hmode : s.mode = .ram) (hpc : s.pc.toNat ≤ 31) :
    fetchWord s = some (fetchRam s (slotAddress s.pc)) := by
  simp [fetchWord, hmode, lastIndex, hpc]

/-- Byte `j` of the word of slot `pc` is the memory byte `8 * pc + j` (20_memory.md R57, R58). -/
theorem fetchRam_slotAddress_extract (s : State) (pc : Word) {j : Nat} (hj : j < 8) :
    (fetchRam s (slotAddress pc)).extractLsb' (8 * j) 8 = memRead s (BitVec.ofNat 8 (8 * pc.toNat + j)) := by
  rw [fetchRam_extract s _ j hj, slotAddress, BitVec.ofNat_add]

/-- A running core executes the decoded word of its fetch (40_cycle.md R112). -/
theorem step_of_fetchWord_eq_some {s : State} {w : Container} (hrun : s.run = .running) (hfetch : fetchWord s = some w) :
    step s = exec (decode w) (recordFetch s w) := by
  simp [step, hrun, hfetch]

end Sys2Proof.Machine

/-! The statements of 45_control_flow.md about the comparisons and the next fetch target. -/

namespace Sys2Proof.Proofs

open Sys2Proof.Statements Sys2Proof.Machine

/-- Settles O21: each condition on words is its relation on their numbers. -/
theorem comparisonOpcodes : Obligations.ComparisonOpcodes := by
  refine ⟨?_, ?_, ?_, ?_, ?_, ?_⟩
  · refine GeneralOpcode.compares (cond := condEq) ⟨by decide, fun _ => rfl, fun _ _ => rfl⟩ (by decide) (by decide)
      fun a b => ?_
    simp [condEq, BitVec.toNat_inj, beq_eq_decide]
  · exact GeneralOpcode.compares (cond := condLe) ⟨by decide, fun _ => rfl, fun _ _ => rfl⟩ (by decide) (by decide)
      fun _ _ => rfl
  · exact GeneralOpcode.compares (cond := condGe) ⟨by decide, fun _ => rfl, fun _ _ => rfl⟩ (by decide) (by decide)
      fun _ _ => rfl
  · exact GeneralOpcode.compares (cond := condLt) ⟨by decide, fun _ => rfl, fun _ _ => rfl⟩ (by decide) (by decide)
      fun _ _ => rfl
  · exact GeneralOpcode.compares (cond := condGt) ⟨by decide, fun _ => rfl, fun _ _ => rfl⟩ (by decide) (by decide)
      fun _ _ => rfl
  · refine GeneralOpcode.compares (cond := condNe) ⟨by decide, fun _ => rfl, fun _ _ => rfl⟩ (by decide) (by decide)
      fun a b => ?_
    simp [condNe, BitVec.toNat_inj, bne, beq_eq_decide]

/-- Settles O31: a completed step keeps the run state, so a running core fetches again. -/
theorem nextFetchTarget : Obligations.NextFetchTarget := by
  intro i s hcan
  obtain ⟨t, out, branch, hexec, hstep⟩ := exec_completedStep hcan
  refine ⟨t, out, branch, hexec, hstep.dispatched, hstep.advanced, fun hrunning => ?_⟩
  have hrun : t.run = .running := hstep.advanced.run.trans hrunning
  cases hfetch : fetchWord t with
  | some w => exact step_of_fetchWord_eq_some hrun hfetch
  | none => exact step_of_fetchWord_eq_none hrun hfetch

/-- Settles O33: the first case of the closed form, and the fetch in either space. -/
theorem spaceSwitchGoesToOutput : Obligations.SpaceSwitchGoesToOutput := by
  intro i s hcan hswitch
  obtain ⟨t, out, branch, hexec, hstep⟩ := exec_completedStep hcan
  have hpc : t.pc = out := hstep.advanced.pc.trans (specPc_of_space_switch hswitch _ out)
  refine ⟨t, out, branch, hexec, hstep.dispatched, hstep.advanced.mode, hpc, fun hrom hout => ?_, fun hram hout => ?_⟩
  · subst hpc
    exact fetchWord_rom hrom hout
  · subst hpc
    exact ⟨_, fetchWord_ram hram hout, fun j hj => fetchRam_slotAddress_extract t t.pc hj⟩

/-- Settles O34: the one dispatch event of the step fixes `out` and `branch`; only a comparison's branch is not 0, and the
relative case of the closed form stays below 256. -/
theorem relativeBranchNeverHalts : Obligations.RelativeBranchNeverHalts := by
  intro i s t out branch hcan hnext hdispatched
  obtain ⟨t', out', branch', hexec, hstep⟩ := exec_completedStep hcan
  obtain rfl : t = t' := Host.Outcome.next.inj (hnext.symm.trans hexec)
  obtain ⟨rfl, rfl⟩ := (hstep.dispatched_iff out branch).mp hdispatched
  have hzero : branch.toNat = 0 ↔ branch = 0#8 := BitVec.toNat_inj (y := 0#8)
  split_ifs with hrelative
  · obtain ⟨hmode, hr, hg, hbranch⟩ := hrelative
    obtain hnone | ⟨hge, hle, hjo⟩ := hstep.branch_eq
    · exact absurd hnone hbranch
    have hpc : t.pc.toNat = (s.pc.toNat + (operandsOf i).jo.toNat) % 256 := by
      rw [hstep.advanced.pc, specPc_of_relative hmode hr hg (mt hzero.mp hbranch), hjo, BitVec.toNat_ofNat]
      omega
    have hrom : t.mode = .rom := by rw [hstep.advanced.mode, hr, spaceOf]
    exact ⟨hge, hle, hjo, hpc, hrom, _, fetchWord_rom hrom (by omega)⟩
  · rw [hstep.advanced.pc]
    exact specPc_of_not_relative (by rwa [ne_eq, hzero]) out

end Sys2Proof.Proofs

/-! SUPPORT. The error conditions of 60_exceptions.md that are no model fault: the fetch out of range, which ends the run,
and the register selector B out of range, which only warns. -/

namespace Sys2Proof.Machine

open Sys2Proof.Statements

/-! ### The end of a run -/

/-- A step request after the end of a run does nothing (60_exceptions.md R259). -/
theorem step_of_run_ne_running {s : State} (hrun : s.run ≠ .running) : step s = .next s := by
  obtain ⟨-, heq⟩ | ⟨hrunning, -, -⟩ | ⟨w, hrunning, -, -⟩ := step_cases s
  · exact heq
  · exact absurd hrunning hrun
  · exact absurd hrunning hrun

/-- The fetch bound of each space; in RAM space the spec states it for the byte address `8 * pc` (60_exceptions.md R241). -/
theorem lastIndex_lt_iff (mode : Mode) (n : Nat) :
    lastIndex mode < n ↔ mode = .rom ∧ 255 < n ∨ mode = .ram ∧ 248 < 8 * n := by
  cases mode with
  | rom => simp [lastIndex]
  | ram =>
    simp only [lastIndex, reduceCtorEq, false_and, true_and, false_or]
    omega

/-- A halt touches neither the console channels nor the SCAN wait. -/
theorem consoleUntouched_enterHalted (s : State) : ConsoleUntouched s (enterHalted s) :=
  ⟨enterHalted_input s, enterHalted_output s, enterHalted_scanWait s⟩

/-! ### Register selector B out of range -/

/-- Operand B as a register that does not exist is 0 (41_operands.md R136). -/
theorem specB_of_selector_out_of_range (s : State) {f : Fields} (hie : f.ie = false) (hrb : 17 ≤ f.rb.toNat) :
    specB s f = 0#32 := by
  rw [specB, if_neg (by simp [hie]), if_neg (by omega)]

/-- Its warning (60_exceptions.md R242). -/
theorem specWarn_of_selector_out_of_range {f : Fields} (hie : f.ie = false) (hrb : 17 ≤ f.rb.toNat) :
    specWarn f = [.selectorOutOfRange f.rb] :=
  if_pos ⟨hie, hrb⟩

/-- Every opcode but SCAN and RAM_READ has the general form of operand B (41_operands.md R132). -/
theorem resolveOf_eq_resolveGeneral {i : Instr} (hscan : opcodeOf i ≠ 15#5) (hread : opcodeOf i ≠ 17#5) (s : State) :
    resolveOf i s = resolveGeneral s (operandsOf i) := by
  rw [resolveOf, if_neg hscan, if_neg hread]

/-- What Operand Resolve recorded stays at the front of the trace, even where Write-Back ends the step in its fault. -/
theorem exec_trace_prefix_of_resolveOf_eq_go {i : Instr} {s u : State} {a b : Word} (hgo : resolveOf i s = .go u (a, b)) :
    ∃ t, exec i s = .next t ∧ u.trace <+: t.trace := by
  obtain ⟨d, out, br, errs, hd, hexec⟩ := exec_eq_runCycle i
  have hdispatch : u.trace <+: (d u (dispatchStart a b)).1.trace := by simp [hd.eq]
  refine ⟨_, by rw [hexec, hgo]; rfl, ?_⟩
  exact hdispatch.trans ((List.prefix_append _ _).trans (trace_prefix_finishCycle _ _ _ _))

end Sys2Proof.Machine

/-! The statements of 60_exceptions.md about the out-of-range fetch and the selector warning. -/

namespace Sys2Proof.Proofs

open Sys2Proof.Statements Sys2Proof.Machine

/-- Settles O9: the fetch has no word, so the core halts; the rest is the frame of `enterHalted`, and a halted core
answers itself. -/
theorem outOfRangeFetchHalts : Obligations.OutOfRangeFetchHalts := by
  intro s hrun hrange
  have hfetch : fetchWord s = none := fetchWord_eq_none ((lastIndex_lt_iff s.mode s.pc.toNat).mpr hrange)
  have hended : (enterHalted s).run ≠ .running := by simp
  exact ⟨enterHalted s, step_of_fetchWord_eq_none hrun hfetch, enterHalted_run s, enterHalted_trace s,
    enterHalted_pc s, enterHalted_mode s, enterHalted_regs s, enterHalted_rom s, enterHalted_scanWait s,
    fun _ => rfl, consoleUntouched_enterHalted s, step_of_run_ne_running hended⟩

/-- Settles O29: Operand Resolve records the warning and `path_b = 0` first, whatever becomes of the step; with the write
selector in range it is a completed step. -/
theorem selectorWarningContinues : Obligations.SelectorWarningContinues := by
  intro i s hscan hread hie hrb hra
  have hresolve := (resolveOf_eq_resolveGeneral hscan hread s).trans (resolveGeneral_eq_go s hra)
  obtain ⟨t, hexec, rest, htrace⟩ := exec_trace_prefix_of_resolveOf_eq_go hresolve
  refine ⟨t, specA s (operandsOf i), rest, hexec, ?_, fun hwf => ?_⟩
  · rw [← htrace]
    simp [specB_of_selector_out_of_range s hie hrb, specWarn_of_selector_out_of_range hie hrb]
  · have hcan : CanComplete i s := ⟨hwf, fun hop => absurd hop hscan⟩
    obtain ⟨t', out, branch, hexec', hstep⟩ := exec_completedStep hcan
    obtain rfl : t = t' := Host.Outcome.next.inj (hexec.symm.trans hexec')
    exact ⟨hstep.advanced.run, hstep.advanced.mode⟩

end Sys2Proof.Proofs

/-! SUPPORT. The low 40 bits of a word are all that its instruction depends on (30_encoding.md R82). -/

namespace Sys2Proof

theorem decode_and_fieldMask (w : Container) : decode (w &&& 0xFFFFFFFFFF#64) = decode w := by
  rw [← encode_decode, decode_encode]

/-- Words of equal low 40 bits decode alike. -/
theorem decode_eq_of_and_fieldMask_eq {w v : Container} (h : w &&& 0xFFFFFFFFFF#64 = v &&& 0xFFFFFFFFFF#64) :
    decode w = decode v := by
  rw [← decode_and_fieldMask w, h, decode_and_fieldMask]

end Sys2Proof

/-! SUPPORT. The bytes of a RAM slot, the word the host places, and the state after construction: what the next fetch
reads in each (20_memory.md R55 to R58, 10_state.md R36). -/

namespace Sys2Proof.Machine

open Sys2Proof.Statements

/-- Eight digits to the base 256, lowest first, as `fetchRam_toNat` adds them. -/
theorem sum_map_range_eight (digit : Nat → Nat) : ((List.range 8).map fun j => digit j * 2 ^ (8 * j)).sum =
    digit 0 + digit 1 * 2 ^ 8 + digit 2 * 2 ^ 16 + digit 3 * 2 ^ 24 + digit 4 * 2 ^ 32 + digit 5 * 2 ^ 40
      + digit 6 * 2 ^ 48 + digit 7 * 2 ^ 56 := by
  simp only [List.range_succ, List.range_zero, List.map_append, List.nil_append, List.map_cons, List.map_nil,
    List.sum_append, List.sum_cons, List.sum_nil]
  simp only [Nat.mul_zero, Nat.pow_zero, Nat.mul_one, Nat.reduceMul, Nat.add_zero, Nat.add_assoc]

/-- A slot's word is the number whose digits to the base 256 are the bytes from `8 * pc` on (20_memory.md R58). -/
theorem fetchRam_slotAddress_toNat (s : State) (pc : Word) :
    (fetchRam s (slotAddress pc)).toNat = ((List.range 8).map fun j =>
      (memRead s (BitVec.ofNat 8 (8 * pc.toNat + j))).toNat * 2 ^ (8 * j)).sum := by
  rw [fetchRam_toNat, sum_map_range_eight fun j => (memRead s (BitVec.ofNat 8 (8 * pc.toNat + j))).toNat]
  simp only [slotAddress, BitVec.ofNat_add, BitVec.add_zero]

/-- A container is its eight bytes. -/
theorem container_eq_of_bytes_eq {w v : Container} (h : ∀ j < 8, w.extractLsb' (8 * j) 8 = v.extractLsb' (8 * j) 8) :
    w = v := by
  refine BitVec.eq_of_getLsbD_eq fun k hk => ?_
  have hbyte := h (k / 8) (by omega)
  have hplace : 8 * (k / 8) + k % 8 = k := by omega
  have hbit := congrArg (fun x => x.getLsbD (k % 8)) hbyte
  simpa [BitVec.getLsbD_extractLsb', hplace, Nat.mod_lt] using hbit

/-! ### The word placed for the next step -/

@[simp] theorem placeWord_pc (s : State) (w : Container) : (placeWord s w).pc = placeIndex s := by
  unfold placeWord; split <;> rfl

@[simp] theorem placeWord_mode (s : State) (w : Container) : (placeWord s w).mode = s.mode := by
  unfold placeWord; split <;> rfl

@[simp] theorem placeWord_run (s : State) (w : Container) : (placeWord s w).run = .running := by
  unfold placeWord; split <;> rfl

/-- In ROM space the table is written at the index that is fetched. -/
theorem romWord_placeWord {s : State} (hmode : s.mode = .rom) (w : Container) :
    romWord (placeWord s w) (placeIndex s).toNat = w := by
  simp [romWord, placeWord, hmode, readCell_writeCell]

/-- In RAM space byte `j` of the word lies `j` places up in the slot that is fetched. -/
theorem memRead_placeWord {s : State} (hmode : s.mode = .ram) (w : Container) {j : Nat} (hj : j < 8) :
    memRead (placeWord s w) (BitVec.ofNat 8 (8 * (placeIndex s).toNat + j)) = w.extractLsb' (8 * j) 8 := by
  have hindex : (placeIndex s).toNat ≤ 31 := by simpa [hmode, lastIndex] using placeIndex_le s
  have haddress : (8 * (placeIndex s).toNat + j) % 256 = 8 * (placeIndex s).toNat + j := Nat.mod_eq_of_lt (by omega)
  simp [memRead, placeWord, hmode, readCell_placeBytes, haddress, hj]

/-- The next fetch reads the word that was placed, in either space. -/
theorem fetchWord_placeWord (s : State) (w : Container) : fetchWord (placeWord s w) = some w := by
  have hindex := placeIndex_le s
  cases hmode : s.mode with
  | rom =>
    rw [hmode] at hindex
    rw [fetchWord_rom (by simp [hmode]) (by simpa [lastIndex] using hindex), placeWord_pc, romWord_placeWord hmode]
  | ram =>
    rw [hmode] at hindex
    rw [fetchWord_ram (by simp [hmode]) (by simpa [lastIndex] using hindex), placeWord_pc]
    refine congrArg some (container_eq_of_bytes_eq fun j hj => ?_)
    rw [fetchRam_slotAddress_extract _ _ hj, memRead_placeWord hmode w hj]

theorem tableContainer_toNat (nbits w : Nat) : (tableContainer nbits w).toNat = w % 2 ^ nbits % 2 ^ 64 :=
  BitVec.toNat_ofNat _ _

/-! ### Construction -/

theorem reg_construct (p : Params) {k : Nat} (hk : k < 16) : reg (State.construct p) k = 0#32 := by
  rw [reg, construct_regs, Vector.toList_replicate, List.getD_replicate _ hk]

theorem romWord_construct (p : Params) (k : Nat) : romWord (State.construct p) k = p.program.toList.getD k 0#64 := by
  have h := readCell_cellsFrom 0 k p.program.toList
  simpa [romWord] using h

/-- The first fetch is of entry 0 (70_reset_and_hazards.md R273). -/
theorem fetchWord_construct (p : Params) : fetchWord (State.construct p) = some (p.program.toList.getD 0 0#64) := by
  rw [fetchWord_rom (construct_mode p) (by simp), construct_pc]
  exact congrArg some (romWord_construct p 0)

/-! ### Requests that change nothing -/

/-- A core that answers one request by itself answers any number so. -/
theorem core_run_eq_self {s : State} (h : step s = .next s) (k : Nat) : Sys2Proof.core.run k s = .next s := by
  induction k with
  | zero => rfl
  | succ k ih => rw [core_run_succ k h, ih]

end Sys2Proof.Machine

/-! The statements about decoding, fetching, placing and construction that need no instruction's meaning. -/

namespace Sys2Proof.Proofs

open Sys2Proof.Statements Sys2Proof.Machine

/-- Settles O4: decoding after the mask is decoding. -/
theorem upperBitsDoNotDecode : Obligations.UpperBitsDoNotDecode :=
  fun _ _ => decode_eq_of_and_fieldMask_eq

/-- Settles O5: five closed words, decoded. -/
theorem sampleWordsDecode : Obligations.SampleWordsDecode := by
  unfold Obligations.SampleWordsDecode
  decide

/-- Settles O6: the state that is executed is the one with the fetch event, unless a wait has it already. -/
theorem stepRunsDecodedInstruction : Obligations.StepRunsDecodedInstruction :=
  fun _ _ hrun hfetch => step_of_fetchWord_eq_some hrun hfetch

/-- Settles O8: the two sides of the bound on the slot, and the slot's word by value and by bytes. -/
theorem ramFetchIsLittleEndianSlot : Obligations.RamFetchIsLittleEndianSlot := by
  intro s hmode
  refine ⟨fun hpc => ⟨_, fetchWord_ram hmode hpc, fetchRam_slotAddress_toNat s s.pc, fun j hj => ?_⟩, fun hpc => ?_⟩
  · exact fetchRam_slotAddress_extract s s.pc hj
  · exact fetchWord_eq_none (by simp only [hmode, lastIndex]; omega)

/-- Settles O10: such a core answers a request by itself. -/
theorem endedRunIgnoresRequests : Obligations.EndedRunIgnoresRequests :=
  fun k _ hended => core_run_eq_self (step_of_run_ne_running hended) k

/-- Settles O13: the placed word is fetched by a running core. -/
theorem placedWordIsExecuted : Obligations.PlacedWordIsExecuted := by
  intro s nbits w
  have hfetch : fetchWord (s.withFetchWord nbits w) = some (tableContainer nbits w) := fetchWord_placeWord s _
  have hrun : (s.withFetchWord nbits w).run = .running := placeWord_run s _
  exact ⟨_, _, hfetch, tableContainer_toNat nbits w, rfl, rfl, step_of_fetchWord_eq_some hrun hfetch⟩

/-- Settles O14: the storages read as their images, and every other field has its value of construction. -/
theorem constructionState : Obligations.ConstructionState := by
  intro p
  exact ⟨fun k hk => reg_construct p hk, memRead_construct p, fun k _ => romWord_construct p k, construct_mode p,
    construct_pc p, construct_run p, construct_scanWait p, construct_input p, construct_output p, construct_trace p⟩

/-- Settles O15: construction leaves a running core whose fetch is entry 0, with nothing in the trace before it. -/
theorem firstStepRunsEntryZero : Obligations.FirstStepRunsEntryZero :=
  fun p => ⟨_, step_of_fetchWord_eq_some (construct_run p) (fetchWord_construct p), rfl⟩

/-- Settles O32: the closed form, case by case. -/
theorem nextPcClosedForm : Obligations.NextPcClosedForm := nextPc_eq_specPc

/-- Settles O20: both shifts, as numbers: the wrapped sum halved, and the wrapped sum doubled and wrapped again. -/
theorem shiftsActOnTheSum : Obligations.ShiftsActOnTheSum := by
  constructor
  · refine GeneralOpcode.computes_value (result := fun a b => (a + b) >>> 1) ⟨by decide, fun _ => rfl, fun _ _ => rfl⟩
      (by decide) (by decide) fun a b => eq_ofInt_of_toNat_eq ?_
    rw [BitVec.toNat_ushiftRight, BitVec.toNat_add, Nat.shiftRight_eq_div_pow, Nat.pow_one]
  · refine GeneralOpcode.computes_value (result := fun a b => (a + b) <<< 1) ⟨by decide, fun _ => rfl, fun _ _ => rfl⟩
      (by decide) (by decide) fun a b => BitVec.eq_of_toNat_eq ?_
    rw [BitVec.ofInt_natCast, BitVec.toNat_ofNat, BitVec.toNat_shiftLeft, BitVec.toNat_add, Nat.shiftLeft_eq,
      Nat.pow_one]

end Sys2Proof.Proofs

/-! SUPPORT. All the ways the step of an instruction can end, whatever the opcode: two faults and the wait of Operand
Resolve, the fault of Write-Back, and completion, each with what it leaves (60_exceptions.md R246, 40_cycle.md R112). -/

namespace Sys2Proof.Machine

open Sys2Proof.Statements

/-! ### Operand Resolve -/

/-- Operand Resolve of `i` leaves `u`: the store of `s`, the warnings and the event of this phase, and for SCAN one
integer token less on the input (41_operands.md R132, 43_memory_io.md R180). -/
structure Resolved (i : Instr) (s u : State) (warns : List Event) (a b : Word) : Prop where
  store : SameStore s u
  output : u.output = s.output
  trace : u.trace = s.trace ++ warns ++ [.operandResolve a b]
  warns_cases : warns = [] ∨ (∃ rb, warns = [.selectorOutOfRange rb]) ∨ ∃ n, warns = [.scanOutOfRange n]
  scan : opcodeOf i = 15#5 → (∃ n, s.input = .integer n :: u.input) ∧ u.scanWait = false
  other : opcodeOf i ≠ 15#5 → u.input = s.input ∧ u.scanWait = s.scanWait

/-- The warning of an integer token (60_exceptions.md R244). -/
def scanWarning (n : Int) : List Event := if scanInRange n then [] else [.scanOutOfRange n]

@[simp] theorem warnScan_trace (s : State) (n : Int) : (warnScan s n).trace = s.trace ++ scanWarning n := by
  unfold warnScan scanWarning
  split_ifs
  · exact (List.append_nil _).symm
  · exact record_trace s _

theorem scanWarning_cases (n : Int) : scanWarning n = [] ∨ scanWarning n = [.scanOutOfRange n] := by
  unfold scanWarning
  split_ifs
  · exact .inl rfl
  · exact .inr rfl

theorem specWarn_cases (f : Fields) : specWarn f = [] ∨ specWarn f = [.selectorOutOfRange f.rb] := by
  unfold specWarn
  split_ifs
  · exact .inr rfl
  · exact .inl rfl

theorem resolved_scan {i : Instr} {s : State} {n : Int} {rest : List Token} (hop : opcodeOf i = 15#5)
    (hra : (operandsOf i).ra.toNat ≤ 16) (hinput : s.input = .integer n :: rest) :
    ∃ u warns a b, resolveOf i s = .go u (a, b) ∧ Resolved i s u warns a b := by
  refine ⟨_, scanWarning n, _, _, by rw [resolveOf, if_pos hop, resolveScan_eq_go hra hinput], ?_⟩
  refine ⟨by constructor <;> simp, by simp, by simp, ?_, fun _ => ⟨⟨n, by simp [hinput]⟩, by simp⟩,
    fun h => absurd hop h⟩
  exact (scanWarning_cases n).imp_right fun h => .inr ⟨n, h⟩

theorem resolved_mem {i : Instr} (hop : opcodeOf i = 17#5) (s : State) (hra : (operandsOf i).ra.toNat ≤ 16) :
    ∃ u warns a b, resolveOf i s = .go u (a, b) ∧ Resolved i s u warns a b := by
  have hscan : opcodeOf i ≠ 15#5 := by simp [hop]
  refine ⟨_, [], _, _, by rw [resolveOf, if_neg hscan, if_pos hop, resolveMem_eq_go s hra], ?_⟩
  exact ⟨by constructor <;> simp, rfl, by simp, .inl rfl, fun h => absurd h hscan, fun _ => ⟨rfl, rfl⟩⟩

theorem resolved_general {i : Instr} (hscan : opcodeOf i ≠ 15#5) (hread : opcodeOf i ≠ 17#5) (s : State)
    (hra : (operandsOf i).ra.toNat ≤ 16) :
    ∃ u warns a b, resolveOf i s = .go u (a, b) ∧ Resolved i s u warns a b := by
  refine ⟨_, specWarn (operandsOf i), _, _,
    by rw [resolveOf_eq_resolveGeneral hscan hread, resolveGeneral_eq_go s hra], ?_⟩
  refine ⟨by constructor <;> simp, by simp, by simp, ?_, fun h => absurd h hscan, fun _ => by simp⟩
  exact (specWarn_cases _).imp_right fun h => .inl ⟨_, h⟩

/-- The selector of operand A is read first, whatever the opcode (41_operands.md R131, R138). -/
theorem resolveOf_of_readA_out_of_range {i : Instr} (s : State) (hra : 17 ≤ (operandsOf i).ra.toNat) :
    resolveOf i s = .ended (enterFaulted s (.readASelectorOutOfRange (operandsOf i).ra)) := by
  have hA (next : Word → Phase (Word × Word)) : resolveA s (operandsOf i).ra next =
      .ended (enterFaulted s (.readASelectorOutOfRange (operandsOf i).ra)) := by
    obtain ⟨a, hsmall, -, -⟩ | ⟨-, heq⟩ := resolveA_cases s (operandsOf i).ra next
    · omega
    · exact heq
  unfold resolveOf
  split_ifs
  · exact hA _
  · exact hA _
  · exact hA _

/-- With operand A in range and no token SCAN waits (40_cycle.md R117). -/
theorem resolveScan_of_no_token {s : State} {f : Fields} (hra : f.ra.toNat ≤ 16) (hinput : s.input = []) :
    resolveScan s f = .ended (awaitToken s) := by
  simp only [resolveScan, resolveA, operandA_eq_specA s hra, hinput]

/-- With operand A in range a malformed token faults, and is taken (43_memory_io.md R181). -/
theorem resolveScan_of_malformed {s : State} {f : Fields} {rest : List Token} (hra : f.ra.toNat ≤ 16)
    (hinput : s.input = .malformed :: rest) :
    resolveScan s f = .ended (enterFaulted (takeToken s rest) .malformedInput) := by
  simp only [resolveScan, resolveA, operandA_eq_specA s hra, hinput]

/-! ### Dispatch, Write-Back and Control-Flow -/

/-- `v` is `u` with the dispatch event recorded, after the error events of Dispatch; the store and the output may have
changed (60_exceptions.md R262). -/
structure DispatchedFrom (op : BitVec 5) (u v : State) (out : Word) (branch : Byte) (errs : List Event) : Prop where
  control : SameControl u v
  input : v.input = u.input
  scanWait : v.scanWait = u.scanWait
  trace : v.trace = u.trace ++ errs ++ [.dispatch op out branch]

/-- The write event of a completed step (60_exceptions.md R262). -/
def writeEvents (op : BitVec 5) (f : Fields) (out : Word) : List Event :=
  if op = 16#5 then if f.ws = 0#8 then [] else [.writeBack (.mem (cellAddress f.ws) (trunc8 out))]
  else specWrite f out

/-- A step that Dispatch found in `u` and that completed in `t`: the frame of every opcode (44_writeback.md R200,
43_memory_io.md R182, R185, 45_control_flow.md R218). -/
structure FinishedFrom (op : BitVec 5) (f : Fields) (u t : State) (out : Word) (branch : Byte) (errs : List Event) :
    Prop where
  advanced : Advanced u t f out branch.toNat
  regs : op ≠ 16#5 → RegsAfter u t f out
  regs_of_store : op = 16#5 → t.regs = u.regs
  mem : t.mem = if op = 16#5 ∧ f.ws ≠ 0#8 then writeCell u.mem (cellAddress f.ws).toNat (trunc8 out) else u.mem
  input : t.input = u.input
  scanWait : t.scanWait = u.scanWait
  output : t.output = u.output ++ if op = 16#5 ∨ op = 18#5 then [out] else []
  trace : t.trace = u.trace ++ errs ++ [.dispatch op out branch] ++ writeEvents op f out
    ++ [.branchDecision t.mode t.pc]

section Cycle

variable {op : BitVec 5} {f : Fields} {d : State → Transient → State × Transient} {out : Word → Word → Word}
  {br : Word → Word → Byte} {errs : Word → Word → List Event}

theorem DispatchSpec.dispatchedFrom (hd : DispatchSpec op f d out br errs) (u : State) (a b : Word) :
    DispatchedFrom op u (record (d u (dispatchStart a b)).1 (.dispatch op (out a b) (br a b))) (out a b) (br a b)
      (errs a b) := by
  rw [hd.eq]
  exact ⟨⟨rfl, rfl, rfl, rfl⟩, rfl, rfl, rfl⟩

/-- Outside RAM_WRITE a selector above 16 ends the step after its dispatch event (44_writeback.md R201). -/
theorem DispatchSpec.runCycle_of_selector_out_of_range (hd : DispatchSpec op f d out br errs) (hop : op ≠ 16#5)
    (hws : 17 ≤ f.ws.toNat) (u : State) (a b : Word) :
    ∃ v, runCycle op f (.go u (a, b)) d = .next (enterFaulted v (.writeSelectorOutOfRange f.ws))
      ∧ DispatchedFrom op u v (out a b) (br a b) (errs a b) := by
  refine ⟨_, ?_, hd.dispatchedFrom u a b⟩
  have hcycle := hd.eq u a b
  obtain ⟨hzero, -⟩ | ⟨-, htrue, -⟩ | ⟨i, -, hi, -⟩ | ⟨-, -, heq⟩ :=
    writeBack_cases (record (d u (dispatchStart a b)).1 (.dispatch op (out a b) (br a b))) f.ws
      (d u (dispatchStart a b)).2
  · simp [hzero] at hws
  · simp [hcycle, hop] at htrue
  · omega
  · rw [hcycle] at heq
    rw [runCycle, hcycle, finishCycle, heq]

/-- Where Write-Back has no fault, the step completes with the registers and the write event that it left. -/
theorem DispatchSpec.finishedFrom (hd : DispatchSpec op f d out br errs) {u : State} {a b : Word}
    {regs : Vector Word 16} {writes : List Event}
    (hwb : writeBack (record (d u (dispatchStart a b)).1 (.dispatch op (out a b) (br a b))) f.ws
      (d u (dispatchStart a b)).2 = .go { (d u (dispatchStart a b)).1 with
        regs := regs, trace := u.trace ++ errs a b ++ [.dispatch op (out a b) (br a b)] ++ writes } ())
    (hwrites : writes = writeEvents op f (out a b))
    (hregister : op ≠ 16#5 → RegsAfter u { u with regs := regs } f (out a b))
    (hstore : op = 16#5 → regs = u.regs) :
    ∃ t, runCycle op f (.go u (a, b)) d = .next t ∧ FinishedFrom op f u t (out a b) (br a b) (errs a b) := by
  have hcycle := hd.eq u a b
  obtain ⟨hpc, hmode, hrun, hrom⟩ := hd.sameControl u a b
  have hout : (d u (dispatchStart a b)).2.output = out a b := by rw [hcycle]
  have hbranch : (d u (dispatchStart a b)).2.branch = br a b := by rw [hcycle]
  have hadvanced := controlFlow_advanced (s := u) (v := { (d u (dispatchStart a b)).1 with
    regs := regs, trace := u.trace ++ errs a b ++ [.dispatch op (out a b) (br a b)] ++ writes })
    ⟨hpc, hmode, hrun, hrom⟩ f (d u (dispatchStart a b)).2
  rw [hout, hbranch] at hadvanced
  refine ⟨_, by rw [runCycle, finishCycle, hout, hbranch, hwb], hadvanced, hregister, hstore, ?_, ?_, ?_, ?_, ?_⟩
  · simp [hcycle]
  · simp [hcycle]
  · simp [hcycle]
  · simp [hcycle]
  · rw [← hwrites]; rfl

/-- RAM_WRITE completes for every selector: no register is written, and the store is reported (43_memory_io.md R182). -/
theorem DispatchSpec.runCycle_of_store (hd : DispatchSpec op f d out br errs) (hop : op = 16#5) (u : State)
    (a b : Word) : ∃ t, runCycle op f (.go u (a, b)) d = .next t
      ∧ FinishedFrom op f u t (out a b) (br a b) (errs a b) := by
  refine hd.finishedFrom (regs := u.regs) ?_ rfl (fun h => absurd hop h) fun _ => rfl
  rw [hd.eq]
  by_cases hzero : f.ws = 0#8
  · simp [writeBack, hzero, writeEvents, hop, record]
  · simp [writeBack, hzero, writeEvents, hop, record]

/-- Every other opcode completes with a selector in range (44_writeback.md R200). -/
theorem DispatchSpec.runCycle_of_register (hd : DispatchSpec op f d out br errs) (hop : op ≠ 16#5)
    (hws : f.ws.toNat ≤ 16) (u : State) (a b : Word) : ∃ t, runCycle op f (.go u (a, b)) d = .next t
      ∧ FinishedFrom op f u t (out a b) (br a b) (errs a b) := by
  have hcycle := hd.eq u a b
  obtain ⟨regs, hgo, hregs⟩ := writeBack_eq_go (record (d u (dispatchStart a b)).1 (.dispatch op (out a b) (br a b)))
    (c := (d u (dispatchStart a b)).2) hws (by simp [hcycle, hop])
  rw [hcycle] at hregs
  refine hd.finishedFrom (regs := regs) (writes := specWrite f (out a b)) ?_ (by rw [writeEvents, if_neg hop])
    (fun _ => hregs) fun h => absurd h hop
  rw [hgo, hcycle]
  rfl

end Cycle

/-! ### The whole step -/

/-- How the step of `i` from `s` ended, and what each end leaves. -/
inductive ExecEnd (i : Instr) (s : State) : State → Prop where
  /-- The fault of operand A's selector, before anything else (41_operands.md R131). -/
  | readAFault (hra : 17 ≤ (operandsOf i).ra.toNat) :
      ExecEnd i s (enterFaulted s (.readASelectorOutOfRange (operandsOf i).ra))
  /-- SCAN's wait (40_cycle.md R117). -/
  | wait (hra : (operandsOf i).ra.toNat ≤ 16) (hop : opcodeOf i = 15#5) (hinput : s.input = []) :
      ExecEnd i s (awaitToken s)
  /-- SCAN's fault on a malformed token (43_memory_io.md R181). -/
  | malformed {rest : List Token} (hra : (operandsOf i).ra.toNat ≤ 16) (hop : opcodeOf i = 15#5)
      (hinput : s.input = .malformed :: rest) : ExecEnd i s (enterFaulted (takeToken s rest) .malformedInput)
  /-- The fault of the write selector, after the dispatch (44_writeback.md R201). -/
  | writeFault {u v : State} {warns errs : List Event} {a b out : Word} {branch : Byte}
      (hra : (operandsOf i).ra.toNat ≤ 16) (htoken : TokenReady i s) (hop : opcodeOf i ≠ 16#5)
      (hws : 17 ≤ (operandsOf i).ws.toNat) (hresolved : Resolved i s u warns a b)
      (hdispatched : DispatchedFrom (opcodeOf i) u v out branch errs) :
      ExecEnd i s (enterFaulted v (.writeSelectorOutOfRange (operandsOf i).ws))
  /-- Completion (40_cycle.md R112). -/
  | completed {u t : State} {warns errs : List Event} {a b out : Word} {branch : Byte} (hcan : CanComplete i s)
      (hresolved : Resolved i s u warns a b)
      (herrs : errs = [] ∨ errs = [.divideByZero] ∧ b = 0#32 ∧ out = 256#32)
      (hfinished : FinishedFrom (opcodeOf i) (operandsOf i) u t out branch errs) : ExecEnd i s t

/-- Operand Resolve ends the step, or leaves a resolved state and a ready token. -/
theorem resolveOf_cases (i : Instr) (s : State) :
    (∃ t, resolveOf i s = .ended t ∧ ExecEnd i s t)
    ∨ ((operandsOf i).ra.toNat ≤ 16 ∧ TokenReady i s
        ∧ ∃ u warns a b, resolveOf i s = .go u (a, b) ∧ Resolved i s u warns a b) := by
  by_cases hra : (operandsOf i).ra.toNat ≤ 16
  · by_cases hscan : opcodeOf i = 15#5
    · cases hinput : s.input with
      | nil =>
        exact .inl ⟨_, by rw [resolveOf, if_pos hscan, resolveScan_of_no_token hra hinput], .wait hra hscan hinput⟩
      | cons token rest =>
        cases token with
        | integer n => exact .inr ⟨hra, fun _ => ⟨n, rest, hinput⟩, resolved_scan hscan hra hinput⟩
        | malformed =>
          exact .inl ⟨_, by rw [resolveOf, if_pos hscan, resolveScan_of_malformed hra hinput],
            .malformed hra hscan hinput⟩
    · refine .inr ⟨hra, fun h => absurd h hscan, ?_⟩
      by_cases hread : opcodeOf i = 17#5
      · exact resolved_mem hread s hra
      · exact resolved_general hscan hread s hra
  · exact .inl ⟨_, resolveOf_of_readA_out_of_range s (by omega), .readAFault (by omega)⟩

/-- Every instruction is answered by a state, in one of the five ways. -/
theorem exec_cases (i : Instr) (s : State) : ∃ t, exec i s = .next t ∧ ExecEnd i s t := by
  obtain ⟨d, out, br, errs, hd, hexec⟩ := exec_eq_runCycle i
  rw [hexec]
  obtain ⟨t, hended, hend⟩ | ⟨hra, htoken, u, warns, a, b, hgo, hresolved⟩ := resolveOf_cases i s
  · exact ⟨t, by rw [hended]; rfl, hend⟩
  rw [hgo]
  by_cases hop : opcodeOf i = 16#5
  · obtain ⟨t, hrun, hfinished⟩ := hd.runCycle_of_store hop u a b
    exact ⟨t, hrun, .completed ((canComplete_iff i s).mpr ⟨hra, .inl hop, htoken⟩) hresolved (hd.errors a b) hfinished⟩
  by_cases hws : (operandsOf i).ws.toNat ≤ 16
  · obtain ⟨t, hrun, hfinished⟩ := hd.runCycle_of_register hop hws u a b
    exact ⟨t, hrun, .completed ((canComplete_iff i s).mpr ⟨hra, .inr hws, htoken⟩) hresolved (hd.errors a b) hfinished⟩
  · obtain ⟨v, hrun, hdispatched⟩ := hd.runCycle_of_selector_out_of_range hop (by omega) u a b
    exact ⟨_, hrun, .writeFault hra htoken hop (by omega) hresolved hdispatched⟩

theorem execEnd_of_exec {i : Instr} {s t : State} (h : exec i s = .next t) : ExecEnd i s t := by
  obtain ⟨t', hexec, hend⟩ := exec_cases i s
  obtain rfl : t = t' := Host.Outcome.next.inj (h.symm.trans hexec)
  exact hend

end Sys2Proof.Machine

/-! SUPPORT. What the five ends of a step leave of the run state, the storages, the SCAN wait, the input and the
trace. -/

namespace Sys2Proof.Machine

open Sys2Proof.Statements

/-! ### The byte a selector names -/

/-- The address of a nonzero selector is one less than it; 255 is none (20_memory.md R51). -/
theorem cellAddress_toNat {sel : Byte} (h : sel ≠ 0#8) : (cellAddress sel).toNat + 1 = sel.toNat := by
  unfold cellAddress
  bv_omega

theorem cellAddress_eq_ofNat {sel : Byte} (h : sel ≠ 0#8) : cellAddress sel = BitVec.ofNat 8 (sel.toNat - 1) := by
  apply BitVec.eq_of_toNat_eq
  have haddress := cellAddress_toNat h
  have hlt := sel.isLt
  rw [BitVec.toNat_ofNat, Nat.mod_eq_of_lt (by omega)]
  omega

theorem trunc8_eq_ofNat (v : Word) : trunc8 v = BitVec.ofNat 8 v.toNat :=
  (BitVec.ofNat_toNat 8 v).symm

/-- Selector 0 is the byte value 0. -/
theorem toNat_eq_zero_iff (sel : Byte) : sel.toNat = 0 ↔ sel = 0#8 :=
  BitVec.toNat_inj (y := 0#8)

/-! ### A completed step -/

section Completed

variable {i : Instr} {s u t : State} {warns errs : List Event} {a b out : Word} {branch : Byte}

/-- Only RAM_WRITE changes a byte, the one its selector names (43_memory_io.md R182). -/
theorem FinishedFrom.memRead_eq {op : BitVec 5} {f : Fields} (h : FinishedFrom op f u t out branch errs) (addr : Byte) :
    memRead t addr = if op = 16#5 ∧ addr.toNat + 1 = f.ws.toNat then trunc8 out else memRead u addr := by
  by_cases hstore : op = 16#5 ∧ f.ws ≠ 0#8
  · have haddress := cellAddress_toNat hstore.2
    have hnamed : addr.toNat = (cellAddress f.ws).toNat ↔ addr.toNat + 1 = f.ws.toNat := by omega
    rw [memRead, h.mem, if_pos hstore, readCell_writeCell]
    simp only [hnamed, hstore.1, true_and, memRead]
  · rw [memRead, h.mem, if_neg hstore, if_neg, memRead]
    rintro ⟨hop, hnamed⟩
    exact hstore ⟨hop, fun hzero => by simp [hzero] at hnamed⟩

/-- The dispatch event of a completed step is among its new events. -/
theorem FinishedFrom.dispatched (h : FinishedFrom (opcodeOf i) (operandsOf i) u t out branch errs)
    (hresolved : Resolved i s u warns a b) : Dispatched i s t out branch := by
  rw [Dispatched, newEvents, h.trace, hresolved.trace]
  simp

/-- The write of a completed step, with what the state then holds. -/
theorem FinishedFrom.writeEvents_cases {op : BitVec 5} {f : Fields} (h : FinishedFrom op f u t out branch errs) :
    writeEvents op f out = []
    ∨ (∃ k : Fin 16, writeEvents op f out = [.writeBack (.reg k out)] ∧ reg t k.val = out)
    ∨ ∃ c v : Byte, writeEvents op f out = [.writeBack (.mem c v)] ∧ memRead t c = v
        ∧ v = BitVec.ofNat 8 out.toNat := by
  unfold writeEvents
  split_ifs with hop hzero
  · exact .inl rfl
  · have haddress := cellAddress_toNat hzero
    exact .inr (.inr ⟨_, _, rfl, by rw [h.memRead_eq, if_pos ⟨hop, haddress⟩], trunc8_eq_ofNat out⟩)
  · unfold specWrite
    split_ifs with hreg
    · refine .inr (.inl ⟨_, rfl, ?_⟩)
      rw [h.regs hop _ (by simp; omega), if_pos (by simp; omega)]
    · exact .inl rfl

end Completed

/-! ### Every end of a step -/

section Ends

variable {i : Instr} {s t : State}

/-- A SCAN with its token does not wait. -/
theorem input_ne_nil_of_tokenReady (h : TokenReady i s) (hop : opcodeOf i = 15#5) : s.input ≠ [] := by
  obtain ⟨n, rest, hinput⟩ := h hop
  simp [hinput]

/-- A SCAN with its token does not fault on it. -/
theorem not_malformed_of_tokenReady (h : TokenReady i s) :
    ¬(opcodeOf i = 15#5 ∧ ∃ rest, s.input = .malformed :: rest) := by
  rintro ⟨hop, rest, hmalformed⟩
  obtain ⟨n, rest', hinput⟩ := h hop
  simp [hinput] at hmalformed

/-- An instruction keeps the run state or faults: it never halts the core (60_exceptions.md section 1). -/
theorem ExecEnd.run_cases (h : ExecEnd i s t) : t.run = s.run ∨ ∃ reason, t.run = .faulted reason := by
  cases h with
  | readAFault | malformed | writeFault => exact .inr ⟨_, rfl⟩
  | wait => exact .inl rfl
  | completed _ hresolved _ hfinished => exact .inl (hfinished.advanced.run.trans hresolved.store.run)

/-- The free values of a fault are in canonical form by construction; a completed step stores one byte at most. -/
theorem ExecEnd.mem_wf (h : ExecEnd i s t) (hwf : s.mem.wf = true) : t.mem.wf = true := by
  cases h with
  | readAFault | malformed | writeFault => exact enterFaulted_wf _ _
  | wait => exact hwf
  | completed _ hresolved _ hfinished =>
    rw [← hresolved.store.mem] at hwf
    rw [hfinished.mem]
    split_ifs
    · exact cellsWfFrom_writeCell 256 0 _ _ _ (Nat.zero_le _) (cellAddress _).isLt hwf
    · exact hwf

/-- Where at most a SCAN was waiting, Operand Resolve leaves no wait: SCAN's token ends it (60_exceptions.md R256). -/
theorem Resolved.scanWait_eq_false {u : State} {warns : List Event} {a b : Word} (h : Resolved i s u warns a b)
    (hwait : s.scanWait = true → opcodeOf i = 15#5) : u.scanWait = false := by
  by_cases hop : opcodeOf i = 15#5
  · exact (h.scan hop).2
  · rw [(h.other hop).2]
    exact Bool.eq_false_iff.mpr fun htrue => hop (hwait htrue)

/-- Where only a SCAN with operand A in range was waiting, only such a SCAN waits after the step. -/
theorem ExecEnd.eq_awaitToken (h : ExecEnd i s t)
    (hwait : s.scanWait = true → opcodeOf i = 15#5 ∧ (operandsOf i).ra.toNat ≤ 16) (ht : t.scanWait = true) :
    t = awaitToken s ∧ opcodeOf i = 15#5 ∧ (operandsOf i).ra.toNat ≤ 16 := by
  cases h with
  | readAFault hra => exact absurd (hwait ht).2 (by omega)
  | wait hra hop => exact ⟨rfl, hop, hra⟩
  | malformed => exact absurd ht (by simp)
  | writeFault _ _ _ _ hresolved hdispatched =>
    have hfalse := hdispatched.scanWait.trans (hresolved.scanWait_eq_false fun h => (hwait h).1)
    simp [hfalse] at ht
  | completed _ hresolved _ hfinished =>
    have hfalse := hfinished.scanWait.trans (hresolved.scanWait_eq_false fun h => (hwait h).1)
    simp [hfalse] at ht

/-- Operand Resolve takes no token, or SCAN's, the first (60_exceptions.md R256). -/
theorem Resolved.input_cases {u : State} {warns : List Event} {a b : Word} (h : Resolved i s u warns a b) :
    u.input = s.input ∨ (opcodeOf i = 15#5 ∧ ∃ token, s.input = token :: u.input) := by
  by_cases hop : opcodeOf i = 15#5
  · obtain ⟨⟨n, hinput⟩, -⟩ := h.scan hop
    exact .inr ⟨hop, _, hinput⟩
  · exact .inl (h.other hop).1

theorem ExecEnd.input_cases (h : ExecEnd i s t) :
    t.input = s.input ∨ (opcodeOf i = 15#5 ∧ ∃ token, s.input = token :: t.input) := by
  cases h with
  | readAFault | wait => exact .inl rfl
  | malformed _ hop hinput => exact .inr ⟨hop, _, hinput⟩
  | writeFault _ _ _ _ hresolved hdispatched =>
    rw [enterFaulted_input, hdispatched.input]
    exact hresolved.input_cases
  | completed _ hresolved _ hfinished =>
    rw [hfinished.input]
    exact hresolved.input_cases

/-- A step that no fault stops waits or completes. -/
theorem ExecEnd.of_notFaulted (h : ExecEnd i s t) (hok : t.NotFaulted) :
    (opcodeOf i = 15#5 ∧ t = awaitToken s)
    ∨ ∃ u warns errs a b out branch, Resolved i s u warns a b
        ∧ FinishedFrom (opcodeOf i) (operandsOf i) u t out branch errs := by
  cases h with
  | readAFault | malformed | writeFault => exact absurd rfl (hok _)
  | wait _ hop => exact .inl ⟨hop, rfl⟩
  | completed _ hresolved _ hfinished => exact .inr ⟨_, _, _, _, _, _, _, hresolved, hfinished⟩

/-- An instruction that can complete does, with all that `FinishedFrom` says. -/
theorem ExecEnd.of_canComplete (h : ExecEnd i s t) (hcan : CanComplete i s) :
    ∃ u warns errs a b out branch, Resolved i s u warns a b
      ∧ (errs = [] ∨ errs = [.divideByZero] ∧ b = 0#32 ∧ out = 256#32)
      ∧ FinishedFrom (opcodeOf i) (operandsOf i) u t out branch errs := by
  obtain ⟨hra, hselector, htoken⟩ := (canComplete_iff i s).mp hcan
  cases h with
  | readAFault hbig => omega
  | wait _ hop hinput => exact absurd hinput (input_ne_nil_of_tokenReady htoken hop)
  | malformed _ hop hinput => exact absurd ⟨hop, _, hinput⟩ (not_malformed_of_tokenReady htoken)
  | writeFault _ _ hop hbig =>
    obtain hstore | hsmall := hselector
    · exact absurd hstore hop
    · omega
  | completed _ hresolved herrs hfinished => exact ⟨_, _, _, _, _, _, _, hresolved, herrs, hfinished⟩

end Ends

/-! ### A step request -/

/-- Every request is answered by a state. -/
theorem step_answers (s : State) : ∃ t, step s = .next t := by
  obtain ⟨-, heq⟩ | ⟨-, -, heq⟩ | ⟨w, -, -, heq⟩ := step_cases s
  · exact ⟨_, heq⟩
  · exact ⟨_, heq⟩
  · obtain ⟨t, hexec, -⟩ := exec_cases (decode w) (recordFetch s w)
    exact ⟨t, heq.trans hexec⟩

/-- A fetch reads the program counter, the mode and the storages, and nothing else. -/
theorem fetchWord_congr {s t : State} (hpc : t.pc = s.pc) (hmode : t.mode = s.mode) (hrom : t.rom = s.rom)
    (hmem : t.mem = s.mem) : fetchWord t = fetchWord s := by
  simp only [fetchWord, romWord, fetchRam, memRead, hpc, hmode, hrom, hmem]

end Sys2Proof.Machine

/-! SUPPORT. The invariant's clauses over the ends of a step. -/

namespace Sys2Proof.Machine

/-- The opcode of SCAN is SCAN's alone (30_encoding.md R89). -/
theorem eq_scan_of_opcodeOf_eq {i : Instr} (h : opcodeOf i = 15#5) : i = .scan (operandsOf i) := by
  rw [← instrOf_opcodeOf_operandsOf i, h, operandsOf_instrOf]
  rfl

/-- A waiting core's invariant, in terms of its opcode. -/
theorem State.Inv.opcodeOf_of_scanWait {s : State} {w : Container} (hinv : s.Inv) (hfetch : fetchWord s = some w)
    (hwait : s.scanWait = true) : opcodeOf (decode w) = 15#5 ∧ (operandsOf (decode w)).ra.toNat ≤ 16 := by
  obtain ⟨-, w', f, hfetch', hscan, hra⟩ := hinv.waitIsScan hwait
  obtain rfl : w = w' := Option.some.inj (hfetch.symm.trans hfetch')
  rw [hscan]
  exact ⟨rfl, hra⟩

/-- A halt leaves the storages and the fetch as they were; the core was not waiting, since its fetch has no word. -/
theorem State.Inv.enterHalted {s : State} (hinv : s.Inv) (hfetch : fetchWord s = none) : (enterHalted s).Inv := by
  have hsame : fetchWord (Machine.enterHalted s) = none := (fetchWord_congr rfl rfl rfl rfl).trans hfetch
  refine ⟨hinv.memWf, hinv.romWf, fun hwait => ?_, fun _ => hsame⟩
  obtain ⟨-, w, f, hword, -⟩ := hinv.waitIsScan hwait
  simp [hfetch] at hword

/-- A running core's instruction keeps the invariant: only a SCAN with operand A in range is left waiting, at the word
it was fetched from, and nothing is halted. -/
theorem State.Inv.exec {s t : State} {w : Container} (hinv : s.Inv) (hrun : s.run = .running)
    (hfetch : fetchWord s = some w) (h : exec (decode w) (recordFetch s w) = .next t) : t.Inv := by
  have hend := execEnd_of_exec h
  refine ⟨hend.mem_wf (by simpa using hinv.memWf), ?_, fun hwait => ?_, fun hhalted => ?_⟩
  · rw [exec_rom h, recordFetch_rom]
    exact hinv.romWf
  · obtain ⟨rfl, hop, hra⟩ := hend.eq_awaitToken
      (fun hwaiting => hinv.opcodeOf_of_scanWait hfetch (by simpa using hwaiting)) hwait
    have hsame : fetchWord (awaitToken (recordFetch s w)) = fetchWord s :=
      fetchWord_congr (by simp) (by simp) (by simp) (by simp)
    exact ⟨by simpa using hrun, w, _, hsame.trans hfetch, eq_scan_of_opcodeOf_eq hop, hra⟩
  · obtain hkept | ⟨reason, hfaulted⟩ := hend.run_cases
    · simp [hkept, hrun] at hhalted
    · simp [hfaulted] at hhalted

theorem construct_inv (p : Params) : (State.construct p).Inv :=
  ⟨construct_mem_wf p, construct_rom_wf p, fun h => absurd h (by simp), fun h => absurd h (by simp)⟩

end Sys2Proof.Machine

/-! The statements about the invariant. -/

namespace Sys2Proof.Proofs

open Sys2Proof.Statements Sys2Proof.Machine

/-- Settles O46: the three answers to a step request, each keeping the clauses. -/
theorem invariantKeptByStep : Obligations.InvariantKeptByStep := by
  intro s t hinv hstep
  obtain ⟨-, heq⟩ | ⟨-, hfetch, heq⟩ | ⟨w, hrun, hfetch, heq⟩ := step_cases s
  · obtain rfl : s = t := Host.Outcome.next.inj (heq.symm.trans hstep)
    exact hinv
  · obtain rfl : enterHalted s = t := Host.Outcome.next.inj (heq.symm.trans hstep)
    exact hinv.enterHalted hfetch
  · exact hinv.exec hrun hfetch (heq.symm.trans hstep)

/-- Settles O47: the state after reset is a constructed core, and those neither wait nor are halted. -/
theorem invariantAtConstruction : Obligations.InvariantAtConstruction :=
  ⟨reset_eq_construct 0 0 ▸ construct_inv _, construct_inv⟩

/-- Settles O48: no clause reads the input. -/
theorem invariantKeptByInput : Obligations.InvariantKeptByInput := by
  intro s tokens hinv
  have hsame : fetchWord (s.supplyInput tokens) = fetchWord s := fetchWord_congr rfl rfl rfl rfl
  refine ⟨hinv.memWf, hinv.romWf, ?_, ?_⟩
  · rw [hsame]
    exact hinv.waitIsScan
  · rw [hsame]
    exact hinv.haltedOutOfRange

end Sys2Proof.Proofs

/-! The statements about every instruction and every step request, by the ends of a step. -/

namespace Sys2Proof.Proofs

open Sys2Proof.Statements Sys2Proof.Machine

/-- Settles O11, by induction on the number of requests. -/
theorem everyRequestAnswersState : Obligations.EveryRequestAnswersState := by
  intro k
  induction k with
  | zero => exact fun s => ⟨s, rfl⟩
  | succ k ih =>
    intro s
    obtain ⟨u, hstep⟩ := step_answers s
    obtain ⟨t, hrun⟩ := ih u
    exact ⟨t, (core_run_succ k hstep).trans hrun⟩

/-- Settles O12: with a word, an instruction keeps the core running or faults it; without one the core halts. -/
theorem onlyFetchHalts : Obligations.OnlyFetchHalts := by
  intro s t hrun hstep
  cases hfetch : fetchWord s with
  | none =>
    rw [step_of_fetchWord_eq_none hrun hfetch] at hstep
    obtain rfl := Host.Outcome.next.inj hstep
    simp
  | some w =>
    rw [step_of_fetchWord_eq_some hrun hfetch] at hstep
    obtain hkept | ⟨reason, hfaulted⟩ := (execEnd_of_exec hstep).run_cases
    · simp [hkept, hrun]
    · simp [hfaulted]

/-- Settles O26: of the five ends, the first alone has such a selector. -/
theorem readASelectorFaultsFirst : Obligations.ReadASelectorFaultsFirst := by
  intro i s hbig
  obtain ⟨t, hexec, hend⟩ := exec_cases i s
  refine ⟨t, hexec, ?_⟩
  cases hend with
  | readAFault => exact ⟨rfl, rfl, rfl, rfl, rfl, rfl, rfl⟩
  | wait hra | malformed hra | writeFault hra => omega
  | completed hcan =>
    obtain ⟨hra, -, -⟩ := (canComplete_iff i s).mp hcan
    omega

/-- Settles O27: of the five ends, the fault of Write-Back alone has such a selector and its token. -/
theorem writeSelectorFaultsAfterDispatch : Obligations.WriteSelectorFaultsAfterDispatch := by
  intro i s hop hra htoken hbig
  obtain ⟨t, hexec, hend⟩ := exec_cases i s
  cases hend with
  | readAFault hbigA => omega
  | wait _ hscan hinput => exact absurd hinput (input_ne_nil_of_tokenReady htoken hscan)
  | malformed _ hscan hinput => exact absurd ⟨hscan, _, hinput⟩ (not_malformed_of_tokenReady htoken)
  | @writeFault u v warns errs a b out branch _ _ _ _ hresolved hdispatched =>
    have hcontrol := hresolved.store.sameControl.trans hdispatched.control
    refine ⟨_, warns ++ [.operandResolve a b] ++ errs, out, branch, hexec, rfl, hcontrol.pc, hcontrol.mode,
      hcontrol.rom, ?_⟩
    simp [hdispatched.trace, hresolved.trace]
  | completed hcan =>
    obtain ⟨-, hstore | hsmall, -⟩ := (canComplete_iff i s).mp hcan
    · exact absurd hstore hop
    · omega

/-- Settles O28: each end decides which of the three conditions holds. -/
theorem modelFaultsAreExactlyThree : Obligations.ModelFaultsAreExactlyThree := by
  intro i s t hrun hexec
  have hend := execEnd_of_exec hexec
  refine ⟨fun reason => ?_, by simpa only [hrun] using hend.run_cases⟩
  cases hend with
  | readAFault hbig =>
    have hra : ¬(operandsOf i).ra.toNat ≤ 16 := by omega
    simp [hbig, hra, eq_comm (a := reason)]
  | wait hra hop hinput =>
    have hbig : ¬17 ≤ (operandsOf i).ra.toNat := by omega
    have hready : ¬TokenReady i s := fun h => input_ne_nil_of_tokenReady h hop hinput
    simp [hrun, hbig, hinput, hready]
  | malformed hra hop hinput =>
    have hbig : ¬17 ≤ (operandsOf i).ra.toNat := by omega
    have hready : ¬TokenReady i s := fun h => not_malformed_of_tokenReady h ⟨hop, _, hinput⟩
    simp [hra, hbig, hop, hinput, hready, eq_comm (a := reason)]
  | writeFault hra htoken hop hws =>
    have hbig : ¬17 ≤ (operandsOf i).ra.toNat := by omega
    have hmalformed := not_malformed_of_tokenReady htoken
    simp [hra, hbig, hop, hws, htoken, hmalformed, eq_comm (a := reason)]
  | completed hcan hresolved _ hfinished =>
    obtain ⟨hra, hselector, htoken⟩ := (canComplete_iff i s).mp hcan
    have hkept : t.run = .running := (hfinished.advanced.run.trans hresolved.store.run).trans hrun
    simp only [hkept, reduceCtorEq, false_iff]
    rintro (⟨-, hbig⟩ | ⟨-, -, hmalformed⟩ | ⟨-, -, hws, hop, -⟩)
    · omega
    · exact not_malformed_of_tokenReady htoken hmalformed
    · exact hselector.elim hop (by omega)

/-- Settles O37: the fetch event, and then the events of the phases as each leaves them. -/
theorem eventsOfCompletedStep : Obligations.EventsOfCompletedStep := by
  intro s w hrun hwait hfetch hcan
  have hcan' : CanComplete (decode w) (recordFetch s w) := by simpa [CanComplete, TokenReady] using hcan
  obtain ⟨t, hexec, hend⟩ := exec_cases (decode w) (recordFetch s w)
  obtain ⟨u, warns, errs, a, b, out, branch, hresolved, herrs, hfinished⟩ := hend.of_canComplete hcan'
  refine ⟨t, warns, a, b, errs, out, branch, _, (step_of_fetchWord_eq_some hrun hfetch).trans hexec, ?_,
    hresolved.warns_cases, herrs, hfinished.writeEvents_cases⟩
  rw [hfinished.trace, hresolved.trace, recordFetch_trace, hwait]
  rfl

/-- Settles O39: a wait writes nothing, and a completed step what `FinishedFrom` says. -/
theorem oneWritePerStep : Obligations.OneWritePerStep := by
  intro i s t hexec hok
  obtain ⟨hop, rfl⟩ | ⟨u, warns, errs, a, b, out, branch, hresolved, hfinished⟩ :=
    (execEnd_of_exec hexec).of_notFaulted hok
  · exact ⟨fun _ => ⟨fun _ => rfl, fun _ _ _ => rfl⟩, fun _ => ⟨fun _ _ => rfl, fun _ _ => rfl⟩⟩
  refine ⟨fun hop => ⟨fun addr => ?_, fun k hk hne => ?_⟩, fun hop => ⟨fun k _ => ?_, fun addr hne => ?_⟩⟩
  · rw [hfinished.memRead_eq, if_neg (fun h => hop h.1), hresolved.store.memRead]
  · rw [hfinished.regs hop k hk, if_neg hne, hresolved.store.reg]
  · rw [reg, hfinished.regs_of_store hop, ← reg, hresolved.store.reg]
  · rw [hfinished.memRead_eq, if_neg (fun h => hne h.2), hresolved.store.memRead]

/-- Settles O40: no selector names address 255, since `ws - 1` is at most 254. -/
theorem topByteIsNeverWritten : Obligations.TopByteIsNeverWritten := by
  intro s t hstep hok
  obtain ⟨-, heq⟩ | ⟨-, -, heq⟩ | ⟨w, -, -, heq⟩ := step_cases s
  · obtain rfl := Host.Outcome.next.inj (heq.symm.trans hstep)
    rfl
  · obtain rfl := Host.Outcome.next.inj (heq.symm.trans hstep)
    rfl
  · have hfetched : memRead (recordFetch s w) 255#8 = memRead s 255#8 := by simp [memRead]
    obtain ⟨hregister, hstore⟩ := oneWritePerStep _ _ t (heq.symm.trans hstep) hok
    rw [← hfetched]
    by_cases hop : opcodeOf (decode w) = 16#5
    · refine (hstore hop).2 _ ?_
      have hlt := (operandsOf (decode w)).ws.isLt
      simp only [BitVec.toNat_ofNat]
      omega
    · exact (hregister hop).1 _

/-- Settles O41: a wait emits nothing, and a completed step what `FinishedFrom` says. -/
theorem consoleOutputByTwoOpcodes : Obligations.ConsoleOutputByTwoOpcodes := by
  intro i s t hexec hok
  obtain ⟨hop, rfl⟩ | ⟨u, warns, errs, a, b, out, branch, hresolved, hfinished⟩ :=
    (execEnd_of_exec hexec).of_notFaulted hok
  · simp [hop]
  have houtput := hfinished.output
  rw [hresolved.output] at houtput
  split_ifs with hemits
  · exact ⟨out, branch, hfinished.dispatched hresolved, by rw [houtput, if_pos hemits]⟩
  · rw [houtput, if_neg hemits, List.append_nil]

/-- Settles O42: SCAN's Operand Resolve alone touches the input. -/
theorem onlyScanTakesTokens : Obligations.OnlyScanTakesTokens :=
  fun _ _ _ hexec => (execEnd_of_exec hexec).input_cases

end Sys2Proof.Proofs

/-! SUPPORT. The operands of SCAN and RAM_READ in the spec's terms, and RAM_WRITE's whole step (43_memory_io.md). -/

namespace Sys2Proof.Machine

open Sys2Proof.Statements

/-- The opcode of an instruction is all that its match under the mask depends on (30_encoding.md R89). SCAN and
RAM_READ, whose operands are of another form, are no `GeneralOpcode`. -/
theorem matchesOpcode_of_opcodeOf {mk : Fields → Instr} {op : Nat} (hlt : op < 32)
    (h : ∀ f, opcodeOf (mk f) = BitVec.ofNat 5 op) : MatchesOpcode mk op := by
  intro f
  have hmask := (and_opcodeMask_eq_iff (encode (mk f)) (BitVec.ofNat 5 op)).mpr (by rw [fieldOp_encode, h])
  rwa [BitVec.toNat_ofNat, Nat.mod_eq_of_lt hlt] at hmask

/-- The byte of RAM_READ is that of its selector (41_operands.md R134). -/
theorem operandMem_eq_specMem (s : State) (f : Fields) : operandMem s f.rb = specMem s f := by
  unfold operandMem specMem
  by_cases hzero : f.rb = 0#8
  · simp [hzero]
  · rw [if_neg hzero, if_neg (mt (toNat_eq_zero_iff f.rb).mp hzero), cellAddress_eq_ofNat hzero, zext32]
    exact (BitVec.ofNat_toNat 32 _).symm

/-! ### SCAN -/

theorem scanInRange_iff (n : Int) : scanInRange n = true ↔ 0 ≤ n ∧ n ≤ 2 ^ 32 - 1 := by
  rw [scanInRange, Bool.and_eq_true, decide_eq_true_eq, decide_eq_true_eq]
  rfl

theorem scanValue_eq_ofInt (n : Int) : scanValue n = BitVec.ofInt 32 (if 0 ≤ n ∧ n ≤ 2 ^ 32 - 1 then n else 0) := by
  simp only [scanValue, scanInRange_iff]
  split_ifs <;> rfl

theorem scanWarning_eq (n : Int) :
    scanWarning n = if 0 ≤ n ∧ n ≤ 2 ^ 32 - 1 then [] else [.scanOutOfRange n] := by
  simp only [scanWarning, scanInRange_iff]

/-- The sum with a token's value, over the integers (43_memory_io.md R181). -/
theorem add_ofInt (a : Word) (v : Int) : a + BitVec.ofInt 32 v = BitVec.ofInt 32 (a.toNat + v) := by
  rw [BitVec.ofInt_add]
  simp

/-- A wait that is over leaves nothing behind: with a token at hand, Operand Resolve of SCAN does not depend on it. -/
theorem resolveScan_awaitToken {s : State} {f : Fields} (hra : f.ra.toNat ≤ 16) (hinput : s.input ≠ []) :
    resolveScan (awaitToken s) f = resolveScan s f := by
  have hA : specA (awaitToken s) f = specA s f := rfl
  simp only [resolveScan, resolveA, operandA_eq_specA _ hra, hA, awaitToken_input]
  cases hs : s.input with
  | nil => exact absurd hs hinput
  | cons token rest => cases token <;> rfl

theorem exec_scan_awaitToken {s : State} {f : Fields} (hra : f.ra.toNat ≤ 16) (hinput : s.input ≠ []) :
    exec (.scan f) (awaitToken s) = exec (.scan f) s := by
  simp only [exec, execScan, resolveScan_awaitToken hra hinput]

/-- SCAN without a token waits, changing nothing else (40_cycle.md R117). -/
theorem exec_scan_of_no_token {s : State} {f : Fields} (hra : f.ra.toNat ≤ 16) (hinput : s.input = []) :
    exec (.scan f) s = .next (awaitToken s) := by
  simp only [exec, execScan, resolveScan_of_no_token hra hinput, runCycle]

/-- A core that awaits a token has fetched a SCAN with operand A in range (40_cycle.md R117). -/
theorem fetchWord_of_awaitsToken {s : State} (h : awaitsToken s = true) :
    ∃ w f, fetchWord s = some w ∧ decode w = .scan f ∧ f.ra.toNat ≤ 16 ∧ s.input = [] := by
  unfold awaitsToken at h
  split at h
  next w hfetch =>
    split at h
    next f hscan =>
      obtain ⟨hra, hinput⟩ : f.ra.toNat ≤ 16 ∧ s.input = [] := by simpa using h
      exact ⟨w, f, hfetch, hscan, hra, hinput⟩
    next => simp at h
  next => simp at h

/-- A core that waits at a SCAN executes it with no second fetch event (60_exceptions.md R262). -/
theorem step_of_waiting {s : State} {w : Container} {f : Fields} (hrun : s.run = .running) (hwait : s.scanWait = true)
    (hfetch : fetchWord s = some w) (hscan : decode w = .scan f) : step s = exec (.scan f) s := by
  rw [step_of_fetchWord_eq_some hrun hfetch, hscan, recordFetch, if_pos hwait]

/-! ### RAM_WRITE -/

/-- RAM_WRITE with operand A in range completes with the default sum, whatever its selector (43_memory_io.md R182,
R183). -/
theorem exec_ramWrite_finishes (s : State) {f : Fields} (hra : f.ra.toNat ≤ 16) :
    ∃ t, exec (.ramWrite f) s = .next t
      ∧ FinishedFrom 16#5 f (record (warnSelector s f.ie f.rb) (.operandResolve (specA s f) (specB s f))) t
          (specA s f + specB s f) 0#8 [] := by
  obtain ⟨t, hrun, hfinished⟩ := (dispatchRamWrite_spec f).runCycle_of_store rfl
    (record (warnSelector s f.ie f.rb) (.operandResolve (specA s f) (specB s f))) (specA s f) (specB s f)
  exact ⟨t, by rw [← hrun, ← resolveGeneral_eq_go s hra]; rfl, hfinished⟩

end Sys2Proof.Machine

/-! The statements of 43_memory_io.md about SCAN, RAM_WRITE and RAM_READ. -/

namespace Sys2Proof.Proofs

open Sys2Proof.Statements Sys2Proof.Machine

/-- Settles O22: the three cases of the input. -/
theorem scanTakesOneToken : Obligations.ScanTakesOneToken := by
  refine ⟨matchesOpcode_of_opcodeOf (by decide) fun _ => rfl, fun f s hra => ⟨fun n rest hinput hws => ?_, fun hinput =>
    exec_scan_of_no_token hra hinput, fun rest hinput =>
    ⟨enterFaulted (takeToken s rest) .malformedInput, ?_, rfl, rfl, rfl, rfl, rfl, rfl, rfl⟩⟩⟩
  · have hsame : SameStore s (record (warnScan (takeToken s rest) n) (.operandResolve (specA s f) (scanValue n))) := by
      constructor <;> simp
    obtain ⟨t, hnext, hstep, hconsole⟩ := runCycle_registerStep (op := 15) (a := specA s f) (b := scanValue n)
      (warns := scanWarning n) (dispatchDefault_spec 15#5 f (by decide) (by decide)) (by decide) hws hsame (by simp)
    rw [scanWarning_eq, scanValue_eq_ofInt, add_ofInt] at hstep
    refine ⟨t, _, ?_, rfl, hstep, ?_, ?_, ?_⟩
    · rw [← hnext, ← resolveScan_eq_go hra hinput]
      rfl
    · simp [hconsole.input, dispatchDefault]
    · simp [hconsole.output, dispatchDefault]
    · simp [hconsole.scanWait, dispatchDefault]
  · simp only [exec, execScan, resolveScan_of_malformed hra hinput, runCycle]

/-- Settles O23: `FinishedFrom` of RAM_WRITE's sum, from the state that Operand Resolve leaves. -/
theorem ramWriteStoresAndEmits : Obligations.RamWriteStoresAndEmits := by
  refine ⟨matchesOpcode_of_opcodeOf (by decide) fun _ => rfl, fun f s hra => ?_⟩
  obtain ⟨t, hexec, hfinished⟩ := exec_ramWrite_finishes s hra
  have hstore : SameStore s (record (warnSelector s f.ie f.rb) (.operandResolve (specA s f) (specB s f))) := by
    constructor <;> simp
  obtain ⟨hpc, hmode, hrun, hrom⟩ := hfinished.advanced
  refine ⟨t, _, hexec, BitVec.add_def .., fun addr => ?_, ?_, ?_, ?_, ?_, ⟨?_, hmode, hrun.trans hstore.run,
    hrom.trans hstore.rom⟩, ?_⟩
  · rw [hfinished.memRead_eq, hstore.memRead, trunc8_eq_ofNat]
    simp only [true_and]
  · simp [hfinished.output]
  · rw [hfinished.regs_of_store rfl, hstore.regs]
  · simp [hfinished.input]
  · simp [hfinished.scanWait]
  · exact hpc.trans (hstore.specPc f 0 _)
  · have hwrites : writeEvents 16#5 f (specA s f + specB s f) = if f.ws.toNat = 0 then []
        else [.writeBack (.mem (BitVec.ofNat 8 (f.ws.toNat - 1)) (BitVec.ofNat 8 (specA s f + specB s f).toNat))] := by
      simp only [writeEvents, if_true, toNat_eq_zero_iff]
      split_ifs with hzero
      · rfl
      · rw [cellAddress_eq_ofNat hzero, trunc8_eq_ofNat]
    rw [hfinished.trace, hwrites]
    simp

/-- Settles O24: RAM_READ's operands, and the default sum. -/
theorem ramReadAddsByte : Obligations.RamReadAddsByte := by
  refine ⟨matchesOpcode_of_opcodeOf (by decide) fun _ => rfl, fun f s hra hws => ?_⟩
  have hsame : SameStore s (record s (.operandResolve (specA s f) (specMem s f))) := by constructor <;> simp
  obtain ⟨t, hnext, hstep, hconsole⟩ := runCycle_registerStep (op := 17) (a := specA s f) (b := specMem s f)
    (warns := []) (dispatchDefault_spec 17#5 f (by decide) (by decide)) (by decide) hws hsame (by simp)
  rw [BitVec.add_def] at hstep
  refine ⟨t, ?_, hstep, hconsole.input, hconsole.output, hconsole.scanWait⟩
  have hresolve := resolveMem_eq_go s hra
  rw [operandMem_eq_specMem] at hresolve
  rw [← hnext, ← hresolve]
  rfl

/-- Settles O43: the store is at its own place of the slot that is fetched. -/
theorem storeSeenByNextFetch : Obligations.StoreSeenByNextFetch := by
  intro f s t hexec hra hws hmode hpc
  obtain ⟨t', hexec', hfinished⟩ := exec_ramWrite_finishes s hra
  obtain rfl : t = t' := Host.Outcome.next.inj (hexec.symm.trans hexec')
  have hlt := f.ws.isLt
  have haddress : 8 * t.pc.toNat + (f.ws.toNat - 1) % 8 = f.ws.toNat - 1 := by omega
  refine ⟨_, fetchWord_ram hmode (by omega), ?_⟩
  rw [fetchRam_slotAddress_extract _ _ (Nat.mod_lt _ (by decide)), haddress, hfinished.memRead_eq, if_pos,
    trunc8_eq_ofNat]
  · apply BitVec.eq_of_toNat_eq
    simp only [BitVec.toNat_ofNat, BitVec.toNat_add]
    omega
  · refine ⟨rfl, ?_⟩
    rw [BitVec.toNat_ofNat, Nat.mod_eq_of_lt (by omega)]
    omega

/-- Settles O44: the core waits in `awaitToken` of its state with the fetch event, where SCAN is executed again, and
`exec_scan_awaitToken` ends the wait. -/
theorem scanWaitIsTransparent : Obligations.ScanWaitIsTransparent := by
  intro s hrun hwait hawaits
  obtain ⟨w, f, hfetch, hscan, hra, hinput⟩ := fetchWord_of_awaitsToken hawaits
  have hfetched : recordFetch s w = record s (.fetch s.mode s.pc w) := by rw [recordFetch, hwait]; rfl
  have hstep : step s = .next (awaitToken (record s (.fetch s.mode s.pc w))) := by
    rw [step_of_fetchWord_eq_some hrun hfetch, hscan, hfetched, exec_scan_of_no_token hra (by simpa using hinput)]
  refine ⟨_, w, hfetch, hstep, rfl, core_run_eq_self ?_, fun tokens htokens => ?_⟩
  · have hsame : fetchWord (awaitToken (record s (.fetch s.mode s.pc w))) = some w :=
      (fetchWord_congr rfl rfl rfl rfl).trans hfetch
    rw [step_of_waiting (by simpa using hrun) (awaitToken_scanWait _) hsame hscan,
      exec_scan_of_no_token hra (by simpa using hinput)]
    rfl
  · have hwaiting : fetchWord ((awaitToken (record s (.fetch s.mode s.pc w))).supplyInput tokens) = some w :=
      (fetchWord_congr rfl rfl rfl rfl).trans hfetch
    have hsupplied : fetchWord (s.supplyInput tokens) = some w := (fetchWord_congr rfl rfl rfl rfl).trans hfetch
    have hevent : (awaitToken (record s (.fetch s.mode s.pc w))).supplyInput tokens
        = awaitToken (recordFetch (s.supplyInput tokens) w) := by
      simp only [recordFetch, supplyInput_scanWait, hwait]
      rfl
    rw [step_of_waiting (by simpa using hrun) (by simp) hwaiting hscan,
      step_of_fetchWord_eq_some (by simpa using hrun) hsupplied, hscan, hevent,
      exec_scan_awaitToken hra (by simp [htokens])]

end Sys2Proof.Proofs

/-! SUPPORT. Dispatch as a function of the instruction, and what of a step the `goto` bit reaches: the next `pc` of a
taken branch that stays in ROM space (45_control_flow.md section 2). -/

namespace Sys2Proof.Machine

open Sys2Proof.Statements

/-! ### Dispatch by instruction -/

/-- Dispatch of an instruction (40_cycle.md R112). -/
def dispatchOf : Instr → State → Transient → State × Transient
  | .sub _ => dispatchValue fun a b => a - b
  | .mul _ => dispatchValue fun a b => a * b
  | .div _ => dispatchDiv
  | .or _ => dispatchValue fun a b => a ||| b
  | .and _ => dispatchValue fun a b => a &&& b
  | .xor _ => dispatchValue fun a b => a ^^^ b
  | .shiftR _ => dispatchValue fun a b => (a + b) >>> 1
  | .shiftL _ => dispatchValue fun a b => (a + b) <<< 1
  | .je f => dispatchCompare condEq f.jo
  | .jle f => dispatchCompare condLe f.jo
  | .jge f => dispatchCompare condGe f.jo
  | .jl f => dispatchCompare condLt f.jo
  | .jg f => dispatchCompare condGt f.jo
  | .jne f => dispatchCompare condNe f.jo
  | .ramWrite f => dispatchRamWrite f.ws
  | .output _ => dispatchOutput
  | _ => dispatchDefault

/-- Every meaning is the cycle of its own Dispatch: the Dispatch of `exec_eq_runCycle`, by name. -/
theorem exec_eq_runCycle_dispatchOf (i : Instr) (s : State) :
    exec i s = runCycle (opcodeOf i) (operandsOf i) (resolveOf i s) (dispatchOf i) := by
  cases i <;> rfl

theorem dispatchOf_spec (i : Instr) :
    ∃ out br errs, DispatchSpec (opcodeOf i) (operandsOf i) (dispatchOf i) out br errs := by
  cases i
  case div f => exact ⟨_, _, _, dispatchDiv_spec f⟩
  case output f => exact ⟨_, _, _, dispatchOutput_spec f⟩
  case ramWrite f => exact ⟨_, _, _, dispatchRamWrite_spec f⟩
  case je f | jle f | jge f | jl f | jg f | jne f =>
    exact ⟨_, _, _, dispatchCompare_spec _ f _ (by simp [opcodeOf]) (by simp [opcodeOf])⟩
  case sub f | mul f | or f | and f | xor f =>
    exact ⟨_, _, _, dispatchValue_spec _ f _ (by simp [opcodeOf]) (by simp [opcodeOf])⟩
  case shiftR f =>
    exact ⟨_, _, _, dispatchValue_spec 7#5 f (fun a b => (a + b) >>> 1) (by decide) (by decide)⟩
  case shiftL f =>
    exact ⟨_, _, _, dispatchValue_spec 8#5 f (fun a b => (a + b) <<< 1) (by decide) (by decide)⟩
  all_goals exact ⟨_, _, _, dispatchDefault_spec _ _ (by simp [opcodeOf]) (by simp [opcodeOf])⟩

/-! ### The `goto` bit -/

/-- Operand Resolve and Dispatch do not read the bit: only the fields of the cycle carry it. -/
theorem exec_withGoto (i : Instr) (b : Bool) (s : State) : exec (withGoto i b) s =
    runCycle (opcodeOf i) { operandsOf i with g := b } (resolveOf i s) (dispatchOf i) := by
  cases i <;> rfl

/-- Control-Flow does not read it in RAM mode, with `r = 1`, or without a taken branch (45_control_flow.md R217). -/
theorem nextPc_goto_irrelevant {mode : Mode} {r : Bool} {branch : Byte} (h : mode = .ram ∨ r = true ∨ branch = 0#8)
    (pc : Word) (g g' : Bool) (out : Word) : nextPc mode pc r g branch out = nextPc mode pc r g' branch out := by
  obtain rfl | rfl | rfl := h
  · cases r
    · simp [nextPc, modeOfBit]
    · simp [nextPc]
  · simp [nextPc]
  · by_cases hmode : mode = modeOfBit r
    · simp [nextPc, hmode]
    · simp [nextPc, hmode]

theorem controlFlow_goto_irrelevant {v : State} {f : Fields} {c : Transient}
    (h : v.mode = .ram ∨ f.r = true ∨ c.branch = 0#8) (b : Bool) :
    controlFlow v { f with g := b } c = controlFlow v f c := by
  simp only [controlFlow, nextPc_goto_irrelevant h v.pc b f.g]

/-- Write-Back reads `ws` alone, and keeps the mode that Control-Flow reads. -/
theorem finishCycle_goto_irrelevant {u : State} {f : Fields} {c : Transient}
    (h : u.mode = .ram ∨ f.r = true ∨ c.branch = 0#8) (op : BitVec 5) (b : Bool) :
    finishCycle op { f with g := b } u c = finishCycle op f u c := by
  unfold finishCycle
  obtain ⟨-, heq⟩ | ⟨-, -, heq⟩ | ⟨i, -, -, heq⟩ | ⟨-, -, heq⟩ :=
    writeBack_cases (record u (.dispatch op c.output c.branch)) f.ws c
  · simpa only [heq] using controlFlow_goto_irrelevant (by exact h) b
  · simpa only [heq] using controlFlow_goto_irrelevant (by exact h) b
  · simpa only [heq] using controlFlow_goto_irrelevant (by exact h) b
  · rw [heq]

end Sys2Proof.Machine

/-! The statements about the fields that a step does not read. -/

namespace Sys2Proof.Proofs

open Sys2Proof.Statements Sys2Proof.Machine

/-- Settles O35: a step that ends in Operand Resolve never reads the bit; any other has its dispatch event, whose branch
the hypothesis speaks of. -/
theorem gotoBitNeedsTakenBranch : Obligations.GotoBitNeedsTakenBranch := by
  intro i s t b hexec hcond
  rw [exec_eq_runCycle_dispatchOf] at hexec
  rw [exec_withGoto]
  obtain ⟨v, hended, -⟩ | ⟨-, -, u, warns, a, b', hgo, hresolved⟩ := resolveOf_cases i s
  · rw [hended] at hexec ⊢
    exact hexec
  rw [hgo] at hexec ⊢
  obtain ⟨out, br, errs, hd⟩ := dispatchOf_spec i
  have hcontrol := hresolved.store.sameControl.trans (hd.sameControl u a b')
  have htrace : s.trace <+: (dispatchOf i u (dispatchStart a b')).1.trace := by simp [hd.eq, hresolved.trace]
  have hdispatched := dispatch_mem_newEvents htrace (opcodeOf i) (operandsOf i) (dispatchOf i u (dispatchStart a b')).2
  obtain rfl := Host.Outcome.next.inj hexec
  refine congrArg Host.Outcome.next (finishCycle_goto_irrelevant ?_ _ b)
  rw [hcontrol.mode]
  exact hcond.imp_right (Or.imp_right fun hbranch => hbranch _ _ hdispatched)

/-- Settles O36: Operand Resolve of SCAN and RAM_READ, and every phase of the opcodes other than the comparisons, is the
same function of the fields that are left. -/
theorem unreadFieldsDoNotMatter : Obligations.UnreadFieldsDoNotMatter := by
  refine ⟨fun f s ie rb => ⟨rfl, rfl⟩, fun i s jo hop => ?_⟩
  cases i
  case je | jle | jge | jl | jg | jne => simp [opcodeOf] at hop
  all_goals rfl

end Sys2Proof.Proofs

/-! SUPPORT. Two cores that differ at most in bits 63..40 of program words and in M[255]: every operation of the machine
keeps that relation and reads the same values from both, phase by phase (30_encoding.md R82, 20_memory.md section 1). -/

namespace Sys2Proof.Statements

open Sys2Proof.Machine

/-! ### The relation of the ends of two steps -/

/-- Two ends of a step: related states, or the same model fault, which leaves the rest unspecified. -/
def SameEnd (t t' : State) : Prop :=
  SameToPrograms t t' ∨ ∃ reason, t.run = .faulted reason ∧ t'.run = .faulted reason

theorem sameEnd_enterFaulted (u u' : State) (reason : Fault) :
    SameEnd (enterFaulted u reason) (enterFaulted u' reason) :=
  .inr ⟨reason, rfl, rfl⟩

/-- Two outcomes of a phase: both go on with one value from related states, or both end alike. -/
inductive SamePhase {α : Type} : Phase α → Phase α → Prop where
  /-- Both go on. -/
  | go {u u' : State} (h : SameToPrograms u u') (x : α) : SamePhase (.go u x) (.go u' x)
  /-- Both end. -/
  | ended {u u' : State} (h : SameEnd u u') : SamePhase (.ended u) (.ended u')

theorem SamePhase.cases {α : Type} {p p' : Phase α} (h : SamePhase p p') :
    (∃ u u' x, p = .go u x ∧ p' = .go u' x ∧ SameToPrograms u u')
    ∨ ∃ u u', p = .ended u ∧ p' = .ended u' ∧ SameEnd u u' := by
  cases h with
  | go h x => exact .inl ⟨_, _, x, rfl, rfl, h⟩
  | ended h => exact .inr ⟨_, _, rfl, rfl, h⟩

namespace SameToPrograms

variable {s s' : State}

/-! ### The updates of the state -/

theorem record {e e' : Event} (h : SameToPrograms s s') (he : decodedPart e' = decodedPart e) :
    SameToPrograms (record s e) (record s' e') :=
  ⟨h.regs, h.pc, h.mode, h.run, h.scanWait, h.rom, h.mem, h.input, h.output, by simp [h.trace, he]⟩

theorem writeReg (h : SameToPrograms s s') (i : Fin 16) (v : Word) :
    SameToPrograms (writeReg s i v) (writeReg s' i v) :=
  ⟨by simp [h.regs], h.pc, h.mode, h.run, h.scanWait, h.rom, h.mem, h.input, h.output, h.trace⟩

theorem takeToken (h : SameToPrograms s s') (rest : List Token) :
    SameToPrograms (takeToken s rest) (takeToken s' rest) :=
  ⟨h.regs, h.pc, h.mode, h.run, rfl, h.rom, h.mem, rfl, h.output, h.trace⟩

theorem awaitToken (h : SameToPrograms s s') : SameToPrograms (awaitToken s) (awaitToken s') :=
  ⟨h.regs, h.pc, h.mode, h.run, rfl, h.rom, h.mem, h.input, h.output, h.trace⟩

theorem enterHalted (h : SameToPrograms s s') : SameToPrograms (enterHalted s) (enterHalted s') :=
  ⟨h.regs, h.pc, h.mode, rfl, h.scanWait, h.rom, h.mem, h.input, h.output, by simp [h.trace, h.mode, h.pc]⟩

theorem warnSelector (h : SameToPrograms s s') (ie : Bool) (rb : Byte) :
    SameToPrograms (warnSelector s ie rb) (warnSelector s' ie rb) := by
  unfold Machine.warnSelector
  split_ifs
  · exact h.record rfl
  · exact h

theorem warnScan (h : SameToPrograms s s') (n : Int) : SameToPrograms (warnScan s n) (warnScan s' n) := by
  unfold Machine.warnScan
  split_ifs
  · exact h
  · exact h.record rfl

/-! ### The operands -/

theorem readReg_eq (h : SameToPrograms s s') : readReg s' = readReg s := by
  funext i
  rw [readReg, readReg, h.regs]

theorem operandA_eq (h : SameToPrograms s s') (ra : Byte) : operandA s' ra = operandA s ra := by
  rw [operandA, operandA, h.readReg_eq]

theorem operandB_eq (h : SameToPrograms s s') (ie : Bool) (rb : Byte) : operandB s' ie rb = operandB s ie rb := by
  simp only [operandB, h.readReg_eq]

/-- RAM_READ's selectors reach no byte above `M[254]` (20_memory.md section 1). -/
theorem operandMem_eq (h : SameToPrograms s s') (rb : Byte) : operandMem s' rb = operandMem s rb := by
  unfold operandMem
  split_ifs with hzero
  · rfl
  · have haddress := cellAddress_toNat hzero
    have hlt := rb.isLt
    rw [h.mem]
    intro htop
    simp only [htop, BitVec.toNat_ofNat] at haddress
    omega

/-! ### Operand Resolve -/

theorem resolved (h : SameToPrograms s s') (a b : Word) : SamePhase (resolved s a b) (resolved s' a b) :=
  .go (h.record rfl) (a, b)

theorem resolveA (h : SameToPrograms s s') (ra : Byte) {next next' : Word → Phase (Word × Word)}
    (hnext : ∀ a, SamePhase (next a) (next' a)) : SamePhase (resolveA s ra next) (resolveA s' ra next') := by
  rw [Machine.resolveA, Machine.resolveA, h.operandA_eq]
  cases operandA s ra with
  | none => exact .ended (sameEnd_enterFaulted _ _ _)
  | some a => exact hnext a

theorem resolveScan (h : SameToPrograms s s') (f : Fields) : SamePhase (resolveScan s f) (resolveScan s' f) := by
  refine h.resolveA f.ra fun a => ?_
  rw [h.input]
  cases s.input with
  | nil => exact .ended (.inl h.awaitToken)
  | cons token rest =>
    cases token with
    | integer n => exact ((h.takeToken rest).warnScan n).resolved a (scanValue n)
    | malformed => exact .ended (sameEnd_enterFaulted _ _ _)

theorem resolveOf (h : SameToPrograms s s') (i : Instr) : SamePhase (resolveOf i s) (resolveOf i s') := by
  unfold Machine.resolveOf
  split_ifs
  · exact h.resolveScan (operandsOf i)
  · refine h.resolveA _ fun a => ?_
    rw [h.operandMem_eq]
    exact h.resolved _ _
  · refine h.resolveA _ fun a => ?_
    rw [h.operandB_eq]
    exact (h.warnSelector _ _).resolved _ _

/-! ### Dispatch, Write-Back and Control-Flow -/

/-- Dispatch computes the same transient values, and stores the same byte if it stores one. -/
theorem dispatch (h : SameToPrograms s s') {op : BitVec 5} {f : Fields} {d : State → Transient → State × Transient}
    {out : Word → Word → Word} {br : Word → Word → Byte} {errs : Word → Word → List Event}
    (hd : DispatchSpec op f d out br errs) (a b : Word) :
    SameToPrograms (d s (dispatchStart a b)).1 (d s' (dispatchStart a b)).1
      ∧ (d s' (dispatchStart a b)).2 = (d s (dispatchStart a b)).2 := by
  rw [hd.eq, hd.eq]
  refine ⟨⟨h.regs, h.pc, h.mode, h.run, h.scanWait, h.rom, fun addr haddr => ?_, h.input, by simp [h.output],
    by simp [h.trace]⟩, rfl⟩
  have hmem : readCell s'.mem addr.toNat = readCell s.mem addr.toNat := h.mem addr haddr
  simp only [memRead]
  split_ifs
  · rw [readCell_writeCell, readCell_writeCell, hmem]
  · exact hmem

theorem writeBack (h : SameToPrograms s s') (ws : Byte) (c : Transient) :
    SamePhase (writeBack s ws c) (writeBack s' ws c) := by
  unfold Machine.writeBack
  split_ifs
  · exact .go h ()
  · exact .go (h.record rfl) ()
  · cases selectorIndex ws with
    | none => exact .ended (sameEnd_enterFaulted _ _ _)
    | some i => exact .go ((h.writeReg i _).record rfl) ()

theorem controlFlow (h : SameToPrograms s s') (f : Fields) (c : Transient) :
    SameToPrograms (controlFlow s f c) (controlFlow s' f c) := by
  refine ⟨h.regs, ?_, ?_, h.run, h.scanWait, h.rom, h.mem, h.input, h.output, ?_⟩
  · simp [h.mode, h.pc]
  · simp [h.mode, h.pc]
  · simp [h.mode, h.pc, h.trace]

theorem finishCycle (h : SameToPrograms s s') (op : BitVec 5) (f : Fields) (c : Transient) :
    SameEnd (finishCycle op f s c) (finishCycle op f s' c) := by
  have hwb := (h.record (e := .dispatch op c.output c.branch) rfl).writeBack f.ws c
  obtain ⟨u, u', x, hgo, hgo', hsame⟩ | ⟨u, u', hended, hended', hsame⟩ := hwb.cases
  · rw [Machine.finishCycle, Machine.finishCycle, hgo, hgo']
    exact .inl (hsame.controlFlow f c)
  · rw [Machine.finishCycle, Machine.finishCycle, hended, hended']
    exact hsame

/-! ### The whole step -/

/-- One instruction ends alike from related states. -/
theorem exec {t t' : State} {i : Instr} (h : SameToPrograms s s') (ht : exec i s = .next t)
    (ht' : exec i s' = .next t') :
    SameEnd t t' := by
  obtain ⟨d, out, br, errs, hd, hexec⟩ := exec_eq_runCycle i
  rw [hexec] at ht ht'
  obtain ⟨u, u', ⟨a, b⟩, hgo, hgo', hsame⟩ | ⟨u, u', hended, hended', hsame⟩ := (h.resolveOf i).cases
  · rw [hgo] at ht
    rw [hgo'] at ht'
    obtain ⟨hstate, hvalues⟩ := hsame.dispatch hd a b
    obtain rfl := Host.Outcome.next.inj ht
    obtain rfl := Host.Outcome.next.inj ht'
    rw [hvalues]
    exact hstate.finishCycle _ _ _
  · rw [hended] at ht
    rw [hended'] at ht'
    obtain rfl := Host.Outcome.next.inj ht
    obtain rfl := Host.Outcome.next.inj ht'
    exact hsame

/-- Related slots hold words of equal low 40 bits: M[255] is the highest byte of slot 31 (20_memory.md section 1). -/
theorem fetchRam_and_fieldMask (h : SameToPrograms s s') (pc : Word) :
    fetchRam s' (slotAddress pc) &&& 0xFFFFFFFFFF#64 = fetchRam s (slotAddress pc) &&& 0xFFFFFFFFFF#64 := by
  have hbyte (j : Nat) (hj : j < 7) :
      memRead s' (slotAddress pc + BitVec.ofNat 8 j) = memRead s (slotAddress pc + BitVec.ofNat 8 j) := by
    refine h.mem _ fun htop => ?_
    have hsum := congrArg BitVec.toNat htop
    rw [slotAddress, ← BitVec.ofNat_add, BitVec.toNat_ofNat, BitVec.toNat_ofNat] at hsum
    omega
  have hlowest := hbyte 0 (by decide)
  rw [BitVec.add_zero] at hlowest
  apply BitVec.eq_of_toNat_eq
  rw [toNat_and_fieldMask, toNat_and_fieldMask, fetchRam_toNat, fetchRam_toNat, hlowest, hbyte 1 (by decide),
    hbyte 2 (by decide), hbyte 3 (by decide), hbyte 4 (by decide)]
  omega

/-- Both fetches are out of range, or read words of equal low 40 bits. -/
theorem fetchWord_cases (h : SameToPrograms s s') :
    (fetchWord s = none ∧ fetchWord s' = none)
    ∨ ∃ w w', fetchWord s = some w ∧ fetchWord s' = some w' ∧ w' &&& 0xFFFFFFFFFF#64 = w &&& 0xFFFFFFFFFF#64 := by
  by_cases hpc : s.pc.toNat ≤ lastIndex s.mode
  · have hpc' : s'.pc.toNat ≤ lastIndex s'.mode := by rwa [h.pc, h.mode]
    refine .inr ?_
    cases hmode : s.mode with
    | rom =>
      have hmode' : s'.mode = .rom := h.mode.trans hmode
      rw [hmode] at hpc
      rw [hmode'] at hpc'
      refine ⟨_, _, fetchWord_rom hmode hpc, fetchWord_rom hmode' hpc', ?_⟩
      rw [h.pc]
      exact h.rom _
    | ram =>
      have hmode' : s'.mode = .ram := h.mode.trans hmode
      rw [hmode] at hpc
      rw [hmode'] at hpc'
      refine ⟨_, _, fetchWord_ram hmode hpc, fetchWord_ram hmode' hpc', ?_⟩
      rw [h.pc]
      exact h.fetchRam_and_fieldMask _
  · have hpc' : ¬s'.pc.toNat ≤ lastIndex s'.mode := by rwa [h.pc, h.mode]
    exact .inl ⟨fetchWord_eq_none (Nat.lt_of_not_le hpc), fetchWord_eq_none (Nat.lt_of_not_le hpc')⟩

theorem recordFetch (h : SameToPrograms s s') {w w' : Container}
    (hw : w' &&& 0xFFFFFFFFFF#64 = w &&& 0xFFFFFFFFFF#64) :
    SameToPrograms (recordFetch s w) (recordFetch s' w') := by
  unfold Machine.recordFetch
  rw [h.scanWait]
  split_ifs
  · exact h
  · exact h.record (by simp only [decodedPart, h.mode, h.pc, hw])

end SameToPrograms

end Sys2Proof.Statements

/-! The statement about what no field holds. -/

namespace Sys2Proof.Proofs

open Sys2Proof.Statements Sys2Proof.Machine

/-- Settles O45: related cores are in the same run state and fetch words that decode alike, so both do nothing, both
halt, or both execute one instruction. -/
theorem ignoredBitsNeverMatter : Obligations.IgnoredBitsNeverMatter := by
  intro s s' t t' h hstep hstep'
  by_cases hrun : s.run = .running
  · have hrun' : s'.run = .running := h.run.trans hrun
    obtain ⟨hfetch, hfetch'⟩ | ⟨w, w', hfetch, hfetch', hw⟩ := h.fetchWord_cases
    · rw [step_of_fetchWord_eq_none hrun hfetch] at hstep
      rw [step_of_fetchWord_eq_none hrun' hfetch'] at hstep'
      obtain rfl := Host.Outcome.next.inj hstep
      obtain rfl := Host.Outcome.next.inj hstep'
      exact .inl h.enterHalted
    · rw [step_of_fetchWord_eq_some hrun hfetch] at hstep
      rw [step_of_fetchWord_eq_some hrun' hfetch', decode_eq_of_and_fieldMask_eq hw] at hstep'
      exact (h.recordFetch hw).exec hstep hstep'
  · rw [step_of_run_ne_running hrun] at hstep
    rw [step_of_run_ne_running (by rwa [h.run])] at hstep'
    obtain rfl := Host.Outcome.next.inj hstep
    obtain rfl := Host.Outcome.next.inj hstep'
    exact .inl h

end Sys2Proof.Proofs
